-- ==== Sys2Proof/Word.lean ====
section
/-!
DEFINITION. The value types of the CORE: bytes, 32-bit words, 16-bit bus offsets, and the two files of eight
words (00_scope.md R8, R11, R12). Functions on them stand in Machine/.
-/

namespace Sys2Proof

/-- `u8` of R12: a byte, 0..255. -/
abbrev Byte := BitVec 8

/-- `u32` of R12: an unsigned 32-bit word. -/
abbrev Word := BitVec 32

/-- A 16-bit bus offset, 0x0000..0xFFFF (20_memory.md R50). -/
abbrev Off := BitVec 16

/-- A file of eight words: the Hash State H[0..7] (10_state.md R21), IV[0..7] (R22) and DIGEST[0..7] (R29). -/
structure Words8 where
  w0 : Word
  w1 : Word
  w2 : Word
  w3 : Word
  w4 : Word
  w5 : Word
  w6 : Word
  w7 : Word
deriving DecidableEq, Repr, Inhabited

/-- The working registers a..h of the Compressor (10_state.md R25). -/
structure Working where
  a : Word
  b : Word
  c : Word
  d : Word
  e : Word
  f : Word
  g : Word
  h : Word
deriving DecidableEq, Repr, Inhabited

end Sys2Proof
end

