-- ==== Sys2Proof/Syntax.lean ====
section
/-!
DEFINITION. The commands of the CORE, one constructor per row of spec/opcode_table.json (30_encoding.md R83).
No command has an immediate or a register field (R82), so no constructor has an argument.
-/

namespace Sys2Proof

/-- The three commands a word written to CMD can select (30_encoding.md R83). -/
inductive Instr where
  | nop
  | hash
  | init
deriving DecidableEq, Repr

end Sys2Proof
end

