-- ==== Sys2Proof/WellFormed.lean ====
section
/-!
DEFINITION. Well-formedness: of a command (there is nothing to check, 30_encoding.md R82) and of a transaction
as a program listing gives it, the 4-tuple of 30_encoding.md R87.
-/

namespace Sys2Proof

/-- Every command is well formed: "No command has an immediate field or a register field" (30_encoding.md R82). -/
def Instr.wellFormed : Instr → Bool
  | .nop => true
  | .hash => true
  | .init => true

/-- The direction of a bus transaction: `dir` is R or W (30_encoding.md R87). -/
inductive Dir where
  | read
  | write
deriving DecidableEq, Repr

/-- A transaction as a listing gives it, before any check: `(dir, size, off, data)` (30_encoding.md R87). -/
structure RawTxn where
  dir : Dir
  size : Nat
  off : Nat
  data : Nat
deriving DecidableEq, Repr

/-- "`size` is 1, 2 or 4" (30_encoding.md R87). -/
def RawTxn.sizeOk (r : RawTxn) : Bool := r.size == 1 || r.size == 2 || r.size == 4

/-- "`off` is 16 bits" (30_encoding.md R87). -/
def RawTxn.offOk (r : RawTxn) : Bool := decide (r.off < 0x10000)

/-- "`data` is 32 bits" (30_encoding.md R87). -/
def RawTxn.dataOk (r : RawTxn) : Bool := decide (r.data < 0x100000000)

/-- `data` is "0 for a read" (30_encoding.md R87). -/
def RawTxn.readDataOk (r : RawTxn) : Bool :=
  match r.dir with
  | .read => r.data == 0
  | .write => true

/-- The four checks of 30_encoding.md R87 together. -/
def RawTxn.wellFormed (r : RawTxn) : Bool := r.sizeOk && r.offOk && r.dataOk && r.readDataOk

end Sys2Proof
end

