-- ==== Sys2Proof/Decode.lean ====
section
/-!
DEFINITION. The command decoder (30_encoding.md R80-R85), total on every word and on every list of bytes,
refusing by name, and after it the encoder, written from the same opcode map.
-/

namespace Sys2Proof

/-- Why a word selects no command (30_encoding.md R81, R84). -/
inductive DecodeError where
  /-- RSVD ≠ 0, "whatever its OPC" (R84). -/
  | reservedBits
  /-- RSVD = 0 and OPC in 0x03..0xFF (R84). -/
  | undefinedOpcode
  /-- not exactly one 32-bit word (R81). -/
  | notOneWord
deriving DecidableEq, Repr

/-- `Cmd` of 30_encoding.md R85: a command, or Illegal with the reason. -/
inductive Decoded where
  | cmd (i : Instr)
  | illegal (why : DecodeError)
deriving DecidableEq, Repr

/-- OPC, bits 7:0 of the command word (30_encoding.md R80). -/
def opcField (w : Word) : BitVec 8 := w.extractLsb' 0 8

/-- RSVD, bits 31:8 of the command word (30_encoding.md R80). -/
def rsvdField (w : Word) : BitVec 24 := w.extractLsb' 8 24

/-- `decode(w)` of 30_encoding.md R85, "total on every u32". -/
def decode (w : Word) : Decoded :=
  if rsvdField w ≠ 0 then .illegal .reservedBits
  else if opcField w = 0x00 then .cmd .nop
  else if opcField w = 0x01 then .cmd .hash
  else if opcField w = 0x02 then .cmd .init
  else .illegal .undefinedOpcode

/-- The word in the four byte lanes of CMD, byte k in bits [8k+7 : 8k] (20_memory.md R52). -/
def wordOfLanes (b0 b1 b2 b3 : Byte) : Word := b3 ++ b2 ++ b1 ++ b0

/-- The decoder on bytes as the bus lays them out: "Every command is exactly one 32-bit word" (30_encoding.md
R81), so any other number of bytes decodes nothing. -/
def decodeBytes : List Byte → Decoded
  | [b0, b1, b2, b3] => decode (wordOfLanes b0 b1 b2 b3)
  | _ => .illegal .notOneWord

/-- The command of a decoding, none where it is illegal. -/
def Decoded.instr? : Decoded → Option Instr
  | .cmd i => some i
  | .illegal _ => none

/-- The `count` bytes of `n`, the least significant first: the order in which the lanes hold a word's bytes
(20_memory.md R52). -/
def bytesLE : Nat → Nat → List Byte
  | 0, _ => []
  | count + 1, n => BitVec.ofNat 8 n :: bytesLE count (n / 256)

/-- The command the decoder reads from the instruction whose table bits are `w`: the bits above `nbits` are 0, up
to the one word every command has; a table row wider than one word is none (30_encoding.md R81). -/
def decodeTableWord (nbits w : Nat) : Option Instr :=
  if nbits ≤ 32 then (decodeBytes (bytesLE 4 (w % 2 ^ nbits))).instr? else none

/-- The opcode of a command, column OPC of the opcode map (30_encoding.md R83). -/
def encodeOpc : Instr → BitVec 8
  | .nop => 0x00
  | .hash => 0x01
  | .init => 0x02

/-- The command word of a command: RSVD = 0 above OPC (30_encoding.md R80, R83). -/
def encode (i : Instr) : Word := (0 : BitVec 24) ++ encodeOpc i

end Sys2Proof
end

