-- ==== Sys2Proof/Config.lean ====
section
/-!
DEFINITION. What an implementation or the platform fixes (00_scope.md R9), and the free values: the values the
spec leaves open (00_scope.md R16, 93_implementation_defined.md I4, I5, I6). A free value has no body: nothing
can be proved of what it is.
-/

namespace Sys2Proof

/-- The default of MSG_BUF_BYTES (00_scope.md R9). The value in force is the register MSG_CAP (10_state.md R34). -/
def Config.msgBufBytesDefault : Nat := 4096

/-- The upper end of MSG_BUF_BYTES' range "0 to 4096" (00_scope.md R9). -/
def Config.msgBufBytesMax : Nat := 4096

/-- CORE_BASE, the platform bus address of offset 0x0000: range "any", default OPEN (00_scope.md R9, I17). -/
opaque Config.coreBase : Nat

/-- The value of byte `i` of MSG_BUF that nothing has written since the power-up named `powerUp`: "any value, fixed
once drawn: it reads the same until written" (I4; 20_memory.md R58, 70_reset_and_hazards.md R252). Notes: log 4. -/
opaque Config.powerUpByte (powerUp i : Nat) : Byte

/-- The value that the `n`th draw gives a read of H[i] while BUSY = 1: "any value, drawn afresh at each read" (I5;
20_memory.md R70). Notes: log 5. -/
opaque Config.hRead (n : Nat) : Word

/-- W[0..63] after the reset event with draw `n`: unspecified (I6; 70_reset_and_hazards.md R250). Notes: log 7. -/
opaque Config.resetSchedule (n : Nat) : Vector Word 64

/-- a..h after the reset event with draw `n`: unspecified (I6; R250). Notes: log 7. -/
opaque Config.resetWorking (n : Nat) : Working

/-- t after the reset event with draw `n`: unspecified within its range 0..64 (I6; R250, 10_state.md R40). -/
opaque Config.resetRound (n : Nat) : Fin 65

/-- L_acc after the reset event with draw `n`: unspecified (I6; R250). Notes: log 7. -/
opaque Config.resetLength (n : Nat) : Word

/-- P after the reset event with draw `n`: unspecified (I6; R250). Notes: log 7. -/
opaque Config.resetPadded (n : Nat) : List Byte

/-- N after the reset event with draw `n`: unspecified (I6; R250). Notes: log 7. -/
opaque Config.resetBlocks (n : Nat) : Nat

/-- j after the reset event with draw `n`: unspecified (I6; R250). Notes: log 7. -/
opaque Config.resetIndex (n : Nat) : Nat

end Sys2Proof
end

