-- ==== Sys2Proof/Machine/State.lean ====
section
/-!
DEFINITION. The state of the machine: everything 10_state.md R20 gives the CORE, the two agents outside it (the
host and the order of turns, 00_scope.md R10), and the counters behind the free values. Plain data.
-/

namespace Sys2Proof.Machine

/-- The two states of the Digest Engine (10_state.md R27). -/
inductive Phase where
  | idle
  | processing
deriving DecidableEq, Repr

/-- The error codes that STATUS.ERR can hold (10_state.md R36); codes 5 to 15 are "never produced". -/
inductive ErrCode where
  | none
  | illegalCmd
  | lenTooLarge
  | cmdWhileBusy
  | writeWhileBusy
deriving DecidableEq, Repr

/-- `size` of a transaction: 1, 2 or 4 bytes (20_memory.md R50). -/
inductive BusSize where
  | one
  | two
  | four
deriving DecidableEq, Repr

/-- A bus transaction (20_memory.md R50). -/
inductive Txn where
  | read (off : Off) (size : BusSize)
  | write (off : Off) (size : BusSize) (data : Word)
deriving DecidableEq, Repr

/-- The response line of the bus (20_memory.md R50, 70_reset_and_hazards.md R253). -/
inductive Resp where
  | okay
  | error
deriving DecidableEq, Repr

/-- The answer to a transaction. A write returns no data; the field is then 0 (20_memory.md R50). -/
structure Response where
  resp : Resp
  data : Word
deriving DecidableEq, Repr

/-- One operation of a host program: a transaction, or the polling loop `wait` (30_encoding.md R88). -/
inductive HostOp where
  | txn (t : Txn)
  | wait
deriving DecidableEq, Repr

/-- Who moves next (00_scope.md R10; 20_memory.md R64): the host, the core sequencer, or one of the two external
events, a reset (70_reset_and_hazards.md R250) and a power-up (R252). -/
inductive Turn where
  | host
  | core
  | reset
  | powerUp
deriving DecidableEq, Repr

/-- Everything the machine holds. -/
structure State where
  /-- H[0..7], the Hash State (10_state.md R21). -/
  h : Words8
  /-- DIGEST[0..7], the digest output latch (R29). -/
  digest : Words8
  /-- MSG_LEN (R32). -/
  msgLen : Word
  /-- PAD_LEN (R33). -/
  padLen : Word
  /-- MSG_CAP, the constant MSG_BUF_BYTES (R34). -/
  msgCap : Word
  /-- STATUS.DONE (R35). -/
  done : Bool
  /-- STATUS.ERR (R35, R36). -/
  err : ErrCode
  /-- MSG_BUF (R31): the bytes written since power-up, each at its bus offset 0x1000 + i. -/
  mem : List Host.Cell
  /-- The Digest Engine's state, which STATUS.BUSY reads (R27). -/
  phase : Phase
  /-- L_acc, the message length the HASH in progress accepted (R28). -/
  lAcc : Word
  /-- P, the Padded Buffer (R28). -/
  p : List Byte
  /-- N, the block count (R28). -/
  n : Nat
  /-- j, the index of the next block (R28). -/
  j : Nat
  /-- W[0..63], the Message Schedule (R24). -/
  w : Vector Word 64
  /-- a..h, the working registers (R25). -/
  v : Working
  /-- t, the round index (R26). -/
  t : Nat
  /-- The host's operations still to be issued, in issue order (20_memory.md R64). The model's own field. -/
  program : List HostOp
  /-- The interleaving: the turns to come (20_memory.md R64). The model's own field. -/
  turns : List Turn
  /-- The answers the host has received, the newest first (20_memory.md R50). The model's own field. -/
  responses : List Response
  /-- How many fresh free values have been drawn (00_scope.md R16). The model's own field. -/
  draws : Nat
  /-- The name of the power-up whose draw fills MSG_BUF (70_reset_and_hazards.md R252). The model's own field. -/
  bufDraw : Nat
deriving DecidableEq, Repr

/-- Why the machine stops. -/
inductive Fault where
  /-- Raised by the sequencer's turn in a state with phase = Processing and j > N, where neither the block step
  (44_engine.md R185) nor Finalize (R186) is enabled. Safe: the machine stops, and no run reaches such a state. -/
  | sequencerStuck
deriving DecidableEq, Repr

/-- Why a request is given no meaning. -/
inductive Refusal where
  /-- Raised by an arm of `exec` that has no meaning yet; none is left. Safe: no claim about the instruction holds. -/
  | notModelled (mnemonic : String)
  /-- Raised by `modularAddChecked` on the empty list, "undefined — treat as a precondition violation" (40_arith.md
  R100, 60_exceptions.md R228). Safe: refused, and no step of the machine calls it. -/
  | emptyAdderList
deriving DecidableEq, Repr

/-- The machine after power-up and reset, for a CORE whose MSG_BUF_BYTES is `cap` (10_state.md R38,
70_reset_and_hazards.md R250, R252). The fields R250 calls unspecified are zero here: DESIGN CHOICE, log 6. The
model's own fields are empty or zero: DESIGN CHOICE, log 22. -/
def State.resetWith (cap : Word) : State :=
  { h := iv
    digest := ⟨0, 0, 0, 0, 0, 0, 0, 0⟩
    msgLen := 0
    padLen := 0
    msgCap := cap
    done := false
    err := .none
    mem := []
    phase := .idle
    lAcc := 0
    p := []
    n := 0
    j := 0
    w := Vector.replicate 64 0
    v := ⟨0, 0, 0, 0, 0, 0, 0, 0⟩
    t := 0
    program := []
    turns := []
    responses := []
    draws := 0
    bufDraw := 0 }

/-- The machine right after reset, with MSG_BUF_BYTES at its default (00_scope.md R9). -/
def State.reset : State := State.resetWith (BitVec.ofNat 32 Config.msgBufBytesDefault)

end Sys2Proof.Machine
end

