-- ==== Sys2Proof/Machine/Ops.lean ====
section
/-!
DEFINITION. The named operations over registers and memory: the eight-word files, the message buffer's cells, the
raising of an error (60_exceptions.md R221) and its clearing (R226), the answer on the bus, and the popping of the
agents' lists.
-/

namespace Sys2Proof.Machine

/-- The words of a file in index order. -/
def wordsList (x : Words8) : List Word := [x.w0, x.w1, x.w2, x.w3, x.w4, x.w5, x.w6, x.w7]

/-- Word `i` of a file, as H[i] and DIGEST[i] are numbered (10_state.md R21, R29); a file has words 0 to 7 only. -/
def wordAt (x : Words8) (i : Nat) : Word := (wordsList x).getD i 0

/-- The file of eight zero words: DIGEST's reset value (10_state.md R29). -/
def zeroWords : Words8 := ⟨0, 0, 0, 0, 0, 0, 0, 0⟩

/-- What an unlisted address of the message buffer holds: no value of its own, since nothing has written it since
power-up. What a read of it returns is the power-up's draw, `msgBufByte` (10_state.md R31). -/
def Memory.unlisted : Option Byte := none

/-- The byte stored at address `a`. -/
def Memory.read : List Host.Cell → Nat → Option Byte
  | [], _ => Memory.unlisted
  | (b, y) :: m, a => if b = a then some y else Memory.read m a

/-- Store the byte `x` at address `a`, keeping the cells in rising order. -/
def Memory.write : List Host.Cell → Nat → Byte → List Host.Cell
  | [], a, x => [(a, x)]
  | (b, y) :: m, a, x =>
    if a < b then (a, x) :: (b, y) :: m
    else if a = b then (a, x) :: m
    else (b, y) :: Memory.write m a x

/-- The canonical form of memory: strictly rising addresses. No entry equals what an unlisted address holds,
because that is no value. -/
abbrev Memory.wf (m : List Host.Cell) : Prop := (m.map Prod.fst).Pairwise (· < ·)

/-- `raise Error(code)`: "STATUS.ERR <- code, STATUS.DONE <- 0. Nothing else changes" (60_exceptions.md R221). The
CORE has no trap: no state is saved and nothing branches (R220). -/
def raiseError (code : ErrCode) (s : State) : State := { s with err := code, done := false }

/-- The clearing of the error indication, by an accepted HASH and by INIT (60_exceptions.md R226): ERR <- NONE and
DONE <- 0. The CORE has no trap return. -/
def clearError (s : State) : State := { s with err := .none, done := false }

/-- Answer the transaction in progress (20_memory.md R50). -/
def respond (resp : Resp) (data : Word) (s : State) : State :=
  { s with responses := ⟨resp, data⟩ :: s.responses }

/-- Take the next turn off the list of turns. -/
def popTurn (s : State) : State := { s with turns := s.turns.tail }

/-- Take the next operation off the host's program. -/
def popOp (s : State) : State := { s with program := s.program.tail }

/-- Apply `f` to the next state of an outcome; a stop stays as it is. -/
def mapNext {σ τ : Type} (f : σ → τ) : Host.Outcome σ Fault Refusal → Host.Outcome τ Fault Refusal
  | .next s => .next (f s)
  | .fault r => .fault r
  | .refused r => .refused r

end Sys2Proof.Machine
end

