-- ==== Sys2Proof/Machine/Arith.lean ====
section
/-!
DEFINITION. The Modular Adder and the bitwise functions of the datapath (40_arith.md). None writes a flag: "The
carry out of bit 31 is discarded and recorded nowhere" (R100).
-/

namespace Sys2Proof.Machine

/-- ModularAdd(v, vs…) on a list that cannot be empty: the sum in a wide accumulator, then modulo 2^32 (40_arith.md
R100). -/
def modularAdd (v : Word) (vs : List Word) : Word :=
  BitVec.ofNat 32 (vs.foldl (fun acc x => acc + x.toNat) v.toNat)

/-- ModularAdd on any list: the empty list is "undefined — treat as a precondition violation", so it is refused
(40_arith.md R100, 60_exceptions.md R228, 93_implementation_defined.md I1). -/
def modularAddChecked : List Word → Except Refusal Word
  | [] => .error .emptyAdderList
  | v :: vs => .ok (modularAdd v vs)

/-- ROTR(x, n), the document's formula (40_arith.md R102). "A model may define ROTR(x, 0) = x": the formula gives
that here; n = 0 and n = 32 never occur. -/
def rotr (x : Word) (n : Nat) : Word := (x >>> n) ||| (x <<< (32 - n))

/-- SHR(x, n), logical: "zeros entering at bit 31" (40_arith.md R103). -/
def shr (x : Word) (n : Nat) : Word := x >>> n

/-- σ0, `s0(x) = ROTR(x, 7) ^ ROTR(x, 18) ^ SHR(x, 3)` (40_arith.md R105). -/
def smallSigma0 (x : Word) : Word := rotr x 7 ^^^ rotr x 18 ^^^ shr x 3

/-- σ1, `s1(x) = ROTR(x, 17) ^ ROTR(x, 19) ^ SHR(x, 10)` (40_arith.md R106). -/
def smallSigma1 (x : Word) : Word := rotr x 17 ^^^ rotr x 19 ^^^ shr x 10

/-- Σ0, `S0(a) = ROTR(a, 2) ^ ROTR(a, 13) ^ ROTR(a, 22)` (40_arith.md R107). -/
def bigSigma0 (a : Word) : Word := rotr a 2 ^^^ rotr a 13 ^^^ rotr a 22

/-- Σ1, `S1(e) = ROTR(e, 6) ^ ROTR(e, 11) ^ ROTR(e, 25)` (40_arith.md R108). -/
def bigSigma1 (e : Word) : Word := rotr e 6 ^^^ rotr e 11 ^^^ rotr e 25

/-- `ch(e, f, g) = (e & f) ^ ((~e) & g)` (40_arith.md R109). -/
def ch (e f g : Word) : Word := (e &&& f) ^^^ (~~~e &&& g)

/-- `maj(a, b, c) = (a & b) ^ (a & c) ^ (b & c)` (40_arith.md R110). -/
def maj (a b c : Word) : Word := (a &&& b) ^^^ (a &&& c) ^^^ (b &&& c)

end Sys2Proof.Machine
end

