-- ==== Sys2Proof/Machine/Scheduler.lean ====
section
/-!
DEFINITION. The Message Scheduler (42_scheduler.md).
-/

namespace Sys2Proof.Machine

/-- `be32(b0,b1,b2,b3) = (b0 << 24) | (b1 << 16) | (b2 << 8) | b3` (00_scope.md R14). -/
def be32 (b0 b1 b2 b3 : Byte) : Word :=
  b0.setWidth 32 <<< 24 ||| b1.setWidth 32 <<< 16 ||| b2.setWidth 32 <<< 8 ||| b3.setWidth 32

/-- `W[x] <- be32(B[4x], B[4x+1], B[4x+2], B[4x+3])`, for x = 0..15 (42_scheduler.md R150). A chunk has all its 64
bytes; a byte beyond the end of a shorter list counts as 0 (log 23). -/
def chunkWord (b : List Byte) (x : Nat) : Word :=
  be32 (b.getD (4 * x) 0) (b.getD (4 * x + 1) 0) (b.getD (4 * x + 2) 0) (b.getD (4 * x + 3) 0)

/-- W[0..15] of a chunk (42_scheduler.md R150). -/
def firstWords (b : List Byte) : List Word :=
  [chunkWord b 0, chunkWord b 1, chunkWord b 2, chunkWord b 3, chunkWord b 4, chunkWord b 5, chunkWord b 6,
   chunkWord b 7, chunkWord b 8, chunkWord b 9, chunkWord b 10, chunkWord b 11, chunkWord b 12, chunkWord b 13,
   chunkWord b 14, chunkWord b 15]

/-- `W[i] <- ModularAdd(W[i-16], s0(W[i-15]), W[i-7], s1(W[i-2]))` for i the number of words so far (42_scheduler.md
R151). -/
def nextWord (ws : List Word) : Word :=
  modularAdd (ws.getD (ws.length - 16) 0)
    [smallSigma0 (ws.getD (ws.length - 15) 0), ws.getD (ws.length - 7) 0, smallSigma1 (ws.getD (ws.length - 2) 0)]

/-- Append `count` words by the recurrence, in increasing i (42_scheduler.md R151). -/
def extendSchedule : Nat → List Word → List Word
  | 0, ws => ws
  | count + 1, ws => extendSchedule count (ws ++ [nextWord ws])

/-- The recurrence appends exactly the words asked for. -/
theorem extendSchedule_length (count : Nat) (ws : List Word) :
    (extendSchedule count ws).length = ws.length + count := by
  induction count generalizing ws with
  | zero => rfl
  | succ count ih => rw [extendSchedule, ih]; simp; omega

/-- Schedule(B) as a list: W[0..15] and then W[16..63] (42_scheduler.md R152). -/
def scheduleList (b : List Byte) : List Word := extendSchedule 48 (firstWords b)

/-- "It always has exactly 64 entries" (42_scheduler.md R152). -/
theorem scheduleList_length (b : List Byte) : (scheduleList b).length = 64 := by
  rw [scheduleList, extendSchedule_length]; rfl

/-- Schedule(B), "the 64-word array W[0..63]" (42_scheduler.md R152). -/
def schedule (b : List Byte) : Vector Word 64 := ⟨(scheduleList b).toArray, scheduleList_length b⟩

/-- W[i] of a schedule; a schedule has words 0 to 63 only. -/
def scheduleWord (w : Vector Word 64) (i : Nat) : Word := w.toList.getD i 0

end Sys2Proof.Machine
end

