-- ==== Sys2Proof/Machine/Compressor.lean ====
section
/-!
DEFINITION. The Compressor (43_compressor.md): the round on the working registers, the fold, the function Compress,
and the same as steps of the state, which read and write H, W, a..h and t.
-/

namespace Sys2Proof.Machine

/-- `(a, …, h) <- (H[0], …, H[7])` (43_compressor.md R160). -/
def loadWorking (x : Words8) : Working := ⟨x.w0, x.w1, x.w2, x.w3, x.w4, x.w5, x.w6, x.w7⟩

/-- `temp1 <- ModularAdd(h, S1v, chv, K[t], W[t])` (43_compressor.md R161, R163). -/
def temp1 (v : Working) (kt wt : Word) : Word := modularAdd v.h [bigSigma1 v.e, ch v.e v.f v.g, kt, wt]

/-- `temp2 <- ModularAdd(S0v, majv)` (43_compressor.md R162, R163). -/
def temp2 (v : Working) : Word := modularAdd (bigSigma0 v.a) [maj v.a v.b v.c]

/-- The register update of one round, "a simultaneous assignment": every right-hand side reads a value from before
the round (43_compressor.md R164). -/
def roundUpdate (v : Working) (kt wt : Word) : Working :=
  { a := modularAdd (temp1 v kt wt) [temp2 v]
    b := v.a
    c := v.b
    d := v.c
    e := modularAdd v.d [temp1 v kt wt]
    f := v.e
    g := v.f
    h := v.g }

/-- "h0..h7 ← ModularAdd(h0..h7 respectively, a..h respectively)" (43_compressor.md R166). -/
def foldWorking (x : Words8) (v : Working) : Words8 :=
  ⟨modularAdd x.w0 [v.a], modularAdd x.w1 [v.b], modularAdd x.w2 [v.c], modularAdd x.w3 [v.d],
   modularAdd x.w4 [v.e], modularAdd x.w5 [v.f], modularAdd x.w6 [v.g], modularAdd x.w7 [v.h]⟩

/-- The working registers after rounds 0, 1, …, count-1, in that order; round t uses K[t] and W[t] (43_compressor.md
R165). -/
def roundsUpTo (v : Working) (w : Vector Word 64) : Nat → Working
  | 0 => v
  | count + 1 => roundUpdate (roundsUpTo v w count) (k count) (scheduleWord w count)

/-- Compress(H, W): "rule R160, then rule R165, then rule R166" (43_compressor.md R167). -/
def compress (x : Words8) (w : Vector Word 64) : Words8 := foldWorking x (roundsUpTo (loadWorking x) w 64)

/-- Block start as a step of the state: a..h <- H[0..7] and t <- 0 (43_compressor.md R160). -/
def startBlock (s : State) : State := { s with v := loadWorking s.h, t := 0 }

/-- One round as a step of the state: the update with K[t] and W[t], and t <- t + 1 (43_compressor.md R164). -/
def roundStep (s : State) : State :=
  { s with v := roundUpdate s.v (k s.t) (scheduleWord s.w s.t), t := s.t + 1 }

/-- `count` rounds, one after another. -/
def roundLoop : Nat → State → State
  | 0, s => s
  | count + 1, s => roundLoop count (roundStep s)

/-- Block end as a step of the state: the fold, "the only mutation point for Hash State" while a message is processed
(43_compressor.md R166, R167). -/
def endBlock (s : State) : State := { s with h := foldWorking s.h s.v }

/-- The whole block, exactly 64 rounds (43_compressor.md R165, R167). -/
def compressBlock (s : State) : State := endBlock (roundLoop 64 (startBlock s))

end Sys2Proof.Machine
end

