-- ==== Sys2Proof/Machine/Operands.lean ====
section
/-!
DEFINITION. The operands: the byte lanes of the bus (20_memory.md R52), the bytes of MSG_BUF (R57, R58) and the
implicit operands of HASH, MSG_LEN and MSG_BUF[0..L) (30_encoding.md R82, 44_engine.md R182).
-/

namespace Sys2Proof.Machine

/-- The number of bytes of an access. -/
def sizeBytes : BusSize → Nat
  | .one => 1
  | .two => 2
  | .four => 4

/-- The bus offset of MSG_BUF[0] (20_memory.md R56). -/
def msgBufBase : Nat := 0x1000

/-- The byte in lane `lane` of a data word: bits [8·lane+7 : 8·lane] (20_memory.md R52). -/
def laneByte (data : Word) (lane : Nat) : Byte := data.extractLsb' (8 * lane) 8

/-- The data word whose lane i holds byte i of the list and whose other bits are 0 (20_memory.md R52). -/
def lanesOf : List Byte → Word
  | [] => 0
  | b :: bs => (lanesOf bs) <<< 8 ||| b.setWidth 32

/-- MSG_BUF[i] (10_state.md R31): the stored byte, or the power-up's draw where nothing has written it since
power-up: "any value, fixed once drawn" (93_implementation_defined.md I4). -/
def msgBufByte (s : State) (i : Nat) : Byte :=
  (Memory.read s.mem (msgBufBase + i)).getD (Config.powerUpByte s.bufDraw i)

/-- MSG_BUF[i], …, MSG_BUF[i+count-1]. -/
def msgBufBytes (s : State) (i : Nat) : Nat → List Byte
  | 0 => []
  | count + 1 => msgBufByte s i :: msgBufBytes s (i + 1) count

/-- Store the low `count` lanes of `data` from address `a` on: "for k in 0..n-1: MSG_BUF[i + k] <- data[8k+7 : 8k]"
(20_memory.md R57). -/
def writeLanes (m : List Host.Cell) (a : Nat) (data : Word) : Nat → List Host.Cell
  | 0 => m
  | count + 1 => Memory.write (writeLanes m a data count) (a + count) (laneByte data count)

/-- The message a HASH accepts: MSG_BUF[0..L) with L = MSG_LEN, as they stand when the command takes effect
(44_engine.md R182, 20_memory.md R66). -/
def message (s : State) : List Byte := msgBufBytes s 0 s.msgLen.toNat

end Sys2Proof.Machine
end

