-- ==== Sys2Proof/Machine/Preprocessor.lean ====
section
/-!
DEFINITION. The message Preprocessor and the block Chunker (41_preprocessor.md).
-/

namespace Sys2Proof.Machine

/-- PaddedLength(L), "the smallest multiple of 64 with M ≥ L + 9", by the closed form of 41_preprocessor.md R131. -/
def paddedLength (len : Nat) : Nat := 64 * ((len + 8) / 64 + 1)

/-- N, the block count `PaddedLength(L)/64` (41_preprocessor.md R142). -/
def blockCount (len : Nat) : Nat := paddedLength len / 64

/-- `be64bytes(v)`: byte k is `v[63−8k : 56−8k]` for k = 0..7 (00_scope.md R14). -/
def be64bytes (v : BitVec 64) : List Byte :=
  [v.extractLsb' 56 8, v.extractLsb' 48 8, v.extractLsb' 40 8, v.extractLsb' 32 8,
   v.extractLsb' 24 8, v.extractLsb' 16 8, v.extractLsb' 8 8, v.extractLsb' 0 8]

/-- The padding marker, "one byte 0x80" (00_scope.md R8, 41_preprocessor.md R133). -/
def paddingMarker : Byte := 0x80

/-- Pad(msg), `P = msg ‖ [0x80] ‖ zeros(M − L − 9) ‖ be64bytes(8·L)` (41_preprocessor.md R130, R134, R135). DESIGN CHOICE,
safe (log 24): for L ≥ 2^61, where the spec leaves the length field open (91_not_in_source.md N8) and I3 calls it
unreachable, the field is 8·L modulo 2^64. No HASH reaches such a length. -/
def pad (msg : List Byte) : List Byte :=
  msg ++ paddingMarker :: (List.replicate (paddedLength msg.length - msg.length - 9) 0
    ++ be64bytes (BitVec.ofNat 64 (8 * msg.length)))

/-- `Chunk(P, j) = P[64*j .. 64*j + 64)` (41_preprocessor.md R140). -/
def chunk (p : List Byte) (j : Nat) : List Byte := (p.drop (64 * j)).take 64

end Sys2Proof.Machine
end

