-- ==== Sys2Proof/Machine/Render.lean ====
section
/-!
DEFINITION. Rendering the digest: HexChar, hex8, Render and the DIGEST_HEX view (00_scope.md R14, 10_state.md R30,
44_engine.md R190).
-/

namespace Sys2Proof.Machine

/-- `HexChar(n)`: 0x30 + n for n = 0..9, and 0x61 + (n − 10) for n = 10..15 (10_state.md R30). -/
def hexChar (n : BitVec 4) : Byte :=
  if n.toNat < 10 then BitVec.ofNat 8 (0x30 + n.toNat) else BitVec.ofNat 8 (0x61 + (n.toNat - 10))

/-- Nibble `i` of a word from the most significant: bits [31−4i : 28−4i], i = 0..7 (10_state.md R30). -/
def nibble (x : Word) (i : Nat) : BitVec 4 := x.extractLsb' (28 - 4 * i) 4

/-- `hex8(w)`: "the 8 lowercase hexadecimal characters of a u32 w, most-significant nibble first, zero-padded"
(00_scope.md R14). -/
def hex8 (x : Word) : List Byte :=
  [hexChar (nibble x 0), hexChar (nibble x 1), hexChar (nibble x 2), hexChar (nibble x 3),
   hexChar (nibble x 4), hexChar (nibble x 5), hexChar (nibble x 6), hexChar (nibble x 7)]

/-- Render(D), `hex8(D[0]) ‖ hex8(D[1]) ‖ … ‖ hex8(D[7])` (44_engine.md R190). -/
def render (d : Words8) : List Byte :=
  hex8 d.w0 ++ hex8 d.w1 ++ hex8 d.w2 ++ hex8 d.w3 ++ hex8 d.w4 ++ hex8 d.w5 ++ hex8 d.w6 ++ hex8 d.w7

/-- DIGEST_HEX[c], with i = floor(c/8) and k = c mod 8: `HexChar(DIGEST[i][31−4k : 28−4k])`. "It is not separate
storage: it is computed from DIGEST at every read" (10_state.md R30). -/
def digestHexByte (d : Words8) (c : Nat) : Byte := hexChar (nibble (wordAt d (c / 8)) (c % 8))

/-- DIGEST_HEX[c], …, DIGEST_HEX[c+count-1]. -/
def digestHexBytes (d : Words8) (c : Nat) : Nat → List Byte
  | 0 => []
  | count + 1 => digestHexByte d c :: digestHexBytes d (c + 1) count

end Sys2Proof.Machine
end

