-- ==== Sys2Proof/Machine/Engine.lean ====
section
/-!
DEFINITION. The Digest Engine (44_engine.md): the meanings of NOP, HASH and INIT, the refusal of illegal commands and
of commands while busy, the two steps of the core sequencer, and the function a HASH computes.
-/

namespace Sys2Proof.Machine

/-- A command written while busy: "any command word w" is dropped, and the word is not decoded (44_engine.md R181). -/
def commandWhileBusy (s : State) : State := raiseError .cmdWhileBusy s

/-- An illegal command in an Idle CORE: `raise Error(ILLEGAL_CMD)` (44_engine.md R189). -/
def illegalCommand (s : State) : State := raiseError .illegalCmd s

/-- The pseudocode of HASH's acceptance, with L = MSG_LEN (44_engine.md R182). H is not written. -/
def acceptHash (s : State) : State :=
  { clearError s with
    lAcc := s.msgLen
    p := pad (message s)
    n := (pad (message s)).length / 64
    j := 0
    padLen := BitVec.ofNat 32 (pad (message s)).length
    phase := .processing }

/-- HASH in an Idle CORE: refused with LEN_TOO_LARGE when MSG_LEN > MSG_BUF_BYTES, accepted otherwise (44_engine.md
R182). -/
def hashIdle (s : State) : State :=
  if s.msgCap.toNat < s.msgLen.toNat then raiseError .lenTooLarge s else acceptHash s

/-- NOP in an Idle CORE: "no state changes" (44_engine.md R188). -/
def nopIdle (s : State) : State := s

/-- INIT in an Idle CORE (44_engine.md R187). MSG_LEN and MSG_BUF are not changed. -/
def initIdle (s : State) : State := { clearError s with h := iv, digest := zeroWords, padLen := 0 }

/-- A command in the order of the dispatch: dropped while `phase = Processing`, whatever it is (44_engine.md R180,
R181), and its own effect in an Idle CORE. -/
def unlessBusy (effect : State → State) (s : State) : Host.Outcome State Fault Refusal :=
  match s.phase with
  | .processing => .next (commandWhileBusy s)
  | .idle => .next (effect s)

/-- NOP: "no state changes" in an Idle CORE (44_engine.md R188); dropped while busy (R181). -/
def execNop (s : State) : Host.Outcome State Fault Refusal := unlessBusy nopIdle s

/-- HASH: accepts a message and starts the Digest Engine (44_engine.md R182); dropped while busy (R181). -/
def execHash (s : State) : Host.Outcome State Fault Refusal := unlessBusy hashIdle s

/-- INIT: "returns the engine to its state at construction" (44_engine.md R187); dropped while busy, so it cannot
cancel a HASH (R181). -/
def execInit (s : State) : Host.Outcome State Fault Refusal := unlessBusy initIdle s

/-- The block step: `B <- Chunk(P, j); W <- Schedule(B); H <- Compress(H, W); j <- j + 1` (44_engine.md R185). -/
def blockStep (s : State) : State :=
  { compressBlock { s with w := schedule (chunk s.p s.j) } with j := s.j + 1 }

/-- Finalize, "one atomic step": DIGEST <- H before H <- IV, phase <- Idle, DONE <- 1; ERR is unchanged (44_engine.md
R186). -/
def finalize (s : State) : State := { s with digest := s.h, h := iv, phase := .idle, done := true }

/-- One turn of the core sequencer: the block step where `phase = Processing` and `j < N` (44_engine.md R185), Finalize
where `phase = Processing` and `j = N` (R186), and nothing while Idle, where neither is enabled. With j > N neither is
enabled and the HASH could never end: stuck (log 13). -/
def sequencerTurn (s : State) : Host.Outcome State Fault Refusal :=
  match s.phase with
  | .idle => .next s
  | .processing =>
    if s.j < s.n then .next (blockStep s)
    else if s.j = s.n then .next (finalize s)
    else .fault .sequencerStuck

/-- The Hash State after blocks 0, …, count-1 of the Padded Buffer `p`, from IV: the fold of HashWords (44_engine.md
R191). -/
def hashBlocks (p : List Byte) : Nat → Words8
  | 0 => iv
  | count + 1 => compress (hashBlocks p count) (schedule (chunk p count))

/-- HashWords(msg) (44_engine.md R191). -/
def hashWords (msg : List Byte) : Words8 := hashBlocks (pad msg) (blockCount msg.length)

/-- SHA256(msg) = Render(HashWords(msg)) (44_engine.md R191). -/
def sha256 (msg : List Byte) : List Byte := render (hashWords msg)

end Sys2Proof.Machine
end

