-- ==== Sys2Proof/Machine/Dispatch.lean ====
section
/-!
DEFINITION. One arm per command: each calls its meaning (44_engine.md R180).
-/

namespace Sys2Proof.Machine

def exec (i : Instr) (s : State) : Host.Outcome State Fault Refusal :=
  match i with
  | .nop => Sys2Proof.Machine.execNop s
  | .hash => Sys2Proof.Machine.execHash s
  | .init => Sys2Proof.Machine.execInit s

end Sys2Proof.Machine
end

