-- ==== Sys2Proof/Machine/Flags.lean ====
section
/-!
DEFINITION. STATUS, the only status bits of the CORE (10_state.md R35, R36, R41). The CORE has no arithmetic flags
(40_arith.md R111).
-/

namespace Sys2Proof.Machine

/-- The number of an error code (10_state.md R36). -/
def errBits : ErrCode → BitVec 4
  | .none => 0
  | .illegalCmd => 1
  | .lenTooLarge => 2
  | .cmdWhileBusy => 3
  | .writeWhileBusy => 4

/-- STATUS.BUSY: "1 exactly when `phase = Processing`" (10_state.md R27, R35). -/
def busyBit (s : State) : BitVec 1 :=
  match s.phase with
  | .idle => 0
  | .processing => 1

/-- STATUS.DONE (10_state.md R35). -/
def doneBit (s : State) : BitVec 1 := BitVec.ofBool s.done

/-- STATUS as the host reads it: reserved 31:12, ERR 11:8, reserved 7:2, DONE 1, BUSY 0; the reserved bits read as
0 (10_state.md R35). -/
def status (s : State) : Word := (0 : BitVec 20) ++ errBits s.err ++ (0 : BitVec 6) ++ doneBit s ++ busyBit s

end Sys2Proof.Machine
end

