-- ==== Sys2Proof/Machine/Bus.lean ====
section
/-!
DEFINITION. The host bus (20_memory.md): the address map, the admission of a transaction, and what an admitted read
or write does.
-/

namespace Sys2Proof.Machine

/-- The mapped regions (20_memory.md R56). -/
inductive Region where
  | cmd
  | status
  | msgLen
  | padLen
  | msgCap
  | h
  | digest
  | digestHex
  | msgBuf
deriving DecidableEq, Repr

/-- One row of the address map: where the region begins, its number of bytes, the sizes it takes, and whether it
allows writing (20_memory.md R53, R56). -/
structure MapRow where
  region : Region
  base : Nat
  bytes : Nat
  sizes : List BusSize
  writable : Bool
deriving DecidableEq, Repr

/-- The address map of a CORE whose MSG_BUF_BYTES is `cap` (20_memory.md R56). Every other offset is reserved. -/
def addressMap (cap : Nat) : List MapRow :=
  [⟨.cmd, 0x0000, 4, [.four], true⟩,
   ⟨.status, 0x0004, 4, [.four], false⟩,
   ⟨.msgLen, 0x0008, 4, [.four], true⟩,
   ⟨.padLen, 0x000C, 4, [.four], false⟩,
   ⟨.msgCap, 0x0010, 4, [.four], false⟩,
   ⟨.h, 0x0040, 32, [.four], false⟩,
   ⟨.digest, 0x0060, 32, [.four], false⟩,
   ⟨.digestHex, 0x0080, 64, [.one, .two, .four], false⟩,
   ⟨.msgBuf, msgBufBase, cap, [.one, .two, .four], true⟩]

/-- The row of the region an offset lies in, if it lies in one. -/
def regionRow (cap off : Nat) : Option MapRow :=
  (addressMap cap).find? (fun r => decide (r.base ≤ off ∧ off < r.base + r.bytes))

/-- Which of the five conditions of 20_memory.md R53 fails first (60_exceptions.md R223 lists them). -/
inductive AdmissionFailure where
  | unmapped
  | sizeNotAllowed
  | misaligned
  | overrun
  | notWritable
deriving DecidableEq, Repr

/-- What admission answers. -/
inductive Admission where
  | admitted (region : Region)
  | rejected (why : AdmissionFailure)
deriving DecidableEq, Repr

/-- The offset of a transaction. -/
def txnOff : Txn → Off
  | .read off _ => off
  | .write off _ _ => off

/-- The size of a transaction. -/
def txnSize : Txn → BusSize
  | .read _ size => size
  | .write _ size _ => size

/-- Whether a transaction is a Write. -/
def txnIsWrite : Txn → Bool
  | .read _ _ => false
  | .write _ _ _ => true

/-- Admission: "The checks are applied in this order, and the first failure decides" (20_memory.md R53). -/
def admission (cap : Nat) (t : Txn) : Admission :=
  match regionRow cap (txnOff t).toNat with
  | none => .rejected .unmapped
  | some r =>
    if txnSize t ∉ r.sizes then .rejected .sizeNotAllowed
    else if (txnOff t).toNat % sizeBytes (txnSize t) ≠ 0 then .rejected .misaligned
    else if r.base + r.bytes < (txnOff t).toNat + sizeBytes (txnSize t) then .rejected .overrun
    else if txnIsWrite t = true ∧ r.writable = false then .rejected .notWritable
    else .admitted r.region

/-- What an admitted Read returns (20_memory.md R55, R58, R59). While STATUS.BUSY = 1 a read of H[i] is "any value (a
draw)" (R70), fresh at each read (93_implementation_defined.md I5). -/
def readData (r : Region) (off : Nat) (size : BusSize) (s : State) : Word :=
  match r with
  | .cmd => 0
  | .status => status s
  | .msgLen => s.msgLen
  | .padLen => s.padLen
  | .msgCap => s.msgCap
  | .h =>
    match s.phase with
    | .idle => wordAt s.h ((off - 0x0040) / 4)
    | .processing => Config.hRead s.draws
  | .digest => wordAt s.digest ((off - 0x0060) / 4)
  | .digestHex => lanesOf (digestHexBytes s.digest (off - 0x0080) (sizeBytes size))
  | .msgBuf => lanesOf (msgBufBytes s (off - msgBufBase) (sizeBytes size))

/-- The count of draws after a read: one more for a read of H while busy (93_implementation_defined.md I5), the same
for every other. No read changes anything else (20_memory.md R55). -/
def countDraw (r : Region) (s : State) : State :=
  match r, s.phase with
  | .h, .processing => { s with draws := s.draws + 1 }
  | _, _ => s

/-- An admitted Read: OKAY with its data. -/
def performRead (r : Region) (off : Nat) (size : BusSize) (s : State) : State :=
  respond .okay (readData r off size s) (countDraw r s)

/-- The dispatch of a word written to CMD (44_engine.md R180): while `phase = Processing` "any w" is dropped, undecoded
(R181); else the word is decoded. -/
def writeCmd (w : Word) (s : State) : Host.Outcome State Fault Refusal :=
  match s.phase with
  | .processing => .next (commandWhileBusy s)
  | .idle =>
    match decode w with
    | .cmd i => exec i s
    | .illegal _ => .next (illegalCommand s)

/-- An admitted Write to MSG_LEN (20_memory.md R60). -/
def writeMsgLen (data : Word) (s : State) : State :=
  match s.phase with
  | .processing => raiseError .writeWhileBusy s
  | .idle => { s with msgLen := data }

/-- An admitted Write to MSG_BUF at bus offset `off` (20_memory.md R57). -/
def writeMsgBuf (off : Nat) (size : BusSize) (data : Word) (s : State) : State :=
  match s.phase with
  | .processing => raiseError .writeWhileBusy s
  | .idle => { s with mem := writeLanes s.mem off data (sizeBytes size) }

/-- The effect of an admitted Write. Only CMD, MSG_LEN and MSG_BUF allow writing (20_memory.md R53), so the other
regions are never reached here, and nothing changes. -/
def performWrite (r : Region) (off : Nat) (size : BusSize) (data : Word) (s : State) :
    Host.Outcome State Fault Refusal :=
  match r with
  | .cmd => writeCmd data s
  | .msgLen => .next (writeMsgLen data s)
  | .msgBuf => .next (writeMsgBuf off size data s)
  | .status => .next s
  | .padLen => .next s
  | .msgCap => .next s
  | .h => .next s
  | .digest => .next s
  | .digestHex => .next s

/-- `raise BusError`: "the ERROR response. It changes no state, STATUS.ERR included. A Read that gets ERROR returns data
0x00000000" (20_memory.md R54, 60_exceptions.md R223). -/
def busError (s : State) : State := respond .error 0 s

/-- One bus transaction (20_memory.md R50, R53, R54); an admitted Write always gets OKAY (R57, R60, 44_engine.md R180). -/
def transact (t : Txn) (s : State) : Host.Outcome State Fault Refusal :=
  match admission s.msgCap.toNat t with
  | .rejected _ => .next (busError s)
  | .admitted r =>
    match t with
    | .read off size => .next (performRead r off.toNat size s)
    | .write off size data => mapNext (respond .okay 0) (performWrite r off.toNat size data s)

/-- "The bus address of offset `off` is `CORE_BASE + off`" (20_memory.md R51). -/
def busAddress (base : Nat) (off : Off) : Nat := base + off.toNat

/-- The offset a bus address has in the window of a CORE at `base`; none where it "does not reach the CORE"
(20_memory.md R51). -/
def offsetIn (base addr : Nat) : Option Off :=
  if base ≤ addr ∧ addr ≤ base + 0xFFFF then some (BitVec.ofNat 16 (addr - base)) else none

end Sys2Proof.Machine
end

