-- ==== Sys2Proof/Machine/Agents.lean ====
section
/-!
DEFINITION. The agents (00_scope.md R10): the host issuing its program, the core sequencer, and the external events
reset and power-up; and whose turn it is (20_memory.md R64).
-/

namespace Sys2Proof.Machine

/-- Reset, an external event (70_reset_and_hazards.md R250). What the rule calls unspecified takes a free value; MSG_BUF
keeps its bytes and MSG_CAP its constant. -/
def hardwareReset (s : State) : State :=
  { s with
    h := iv
    digest := zeroWords
    msgLen := 0
    padLen := 0
    done := false
    err := .none
    phase := .idle
    lAcc := Config.resetLength s.draws
    p := Config.resetPadded s.draws
    n := Config.resetBlocks s.draws
    j := Config.resetIndex s.draws
    w := Config.resetSchedule s.draws
    v := Config.resetWorking s.draws
    t := (Config.resetRound s.draws).val
    draws := s.draws + 1 }

/-- "Power-up is a reset (rule R250) in which MSG_BUF holds any value in every byte" (70_reset_and_hazards.md R252): no
byte is written any more, and the buffer's draw is a new one. -/
def powerUp (s : State) : State := { hardwareReset s with mem := [], bufDraw := s.draws + 1 }

/-- The Read that `wait` repeats, `lw 0x0004` (30_encoding.md R88). -/
def statusRead : Txn := .read 0x0004 .four

/-- One round of the host's `wait`: read STATUS, and go on to the next operation once bit 0 of the value is 0
(30_encoding.md R88). -/
def pollStatus (s : State) : Host.Outcome State Fault Refusal :=
  mapNext (fun after => if (readData .status 0x0004 .four s).getLsbD 0 then after else popOp after)
    (transact statusRead s)

/-- One turn of the host: its next operation takes effect (20_memory.md R64). With no operation left the host does
nothing. -/
def hostTurn (s : State) : Host.Outcome State Fault Refusal :=
  match s.program with
  | [] => .next s
  | .txn t :: _ => transact t (popOp s)
  | .wait :: _ => pollStatus s

/-- Whose turn it is: the head of the list of turns; when the list is used up, the sequencer's while a HASH is in
progress, so that it is weakly fair (70_reset_and_hazards.md R262), and the host's otherwise. -/
def nextTurn (s : State) : Turn :=
  match s.turns with
  | turn :: _ => turn
  | [] =>
    match s.phase with
    | .processing => .core
    | .idle => .host

/-- One step of the machine: the next turn, taken off the list and taken. "Events never coincide" (60_exceptions.md
R225). -/
def takeTurn (s : State) : Host.Outcome State Fault Refusal :=
  match nextTurn s with
  | .host => hostTurn (popTurn s)
  | .core => sequencerTurn (popTurn s)
  | .reset => .next (hardwareReset (popTurn s))
  | .powerUp => .next (powerUp (popTurn s))

/-- `s` with a write of the word `w` to CMD as the host's next operation, and the host's turn next. -/
def withCommandWord (s : State) (w : Word) : State :=
  { s with program := .txn (.write 0x0000 .four w) :: s.program, turns := .host :: s.turns }

end Sys2Proof.Machine
end

