-- ==== Sys2Proof/Machine/Step.lean ====
section
/-!
DEFINITION. The step of the machine, and the placing of a command word where the next step finds it.
-/

namespace Sys2Proof.Machine

/-- One step: the turn that is next (00_scope.md R10, 20_memory.md R64). -/
def step (s : State) : Host.Outcome State Fault Refusal := Sys2Proof.Machine.takeTurn s

/-- `s` with the command word whose table bits are `w` placed where the next step takes it: the CORE fetches nothing
(10_state.md R40), so it is the host's next operation, a 32-bit write to CMD (30_encoding.md R80; log 9). -/
def State.withFetchWord (s : State) (nbits w : Nat) : State :=
  Sys2Proof.Machine.withCommandWord s (BitVec.ofNat 32 (w % 2 ^ nbits))

end Sys2Proof.Machine
end

