-- ==== Sys2Proof/Machine/HostProgram.lean ====
section
/-!
DEFINITION. The syntax of host programs (30_encoding.md R86-R88): the transaction as a listing gives it, the lines lw,
lh, lb, sw, sh and sb, the pseudo-instructions and their expansions.
-/

namespace Sys2Proof.Machine

/-- The 4-tuple `(dir, size, off, data)` of a transaction; data is "0 for a read" (30_encoding.md R87). -/
def txnTuple : Txn → RawTxn
  | .read off size => ⟨.read, sizeBytes size, off.toNat, 0⟩
  | .write off size data => ⟨.write, sizeBytes size, off.toNat, data.toNat⟩

/-- The access size of a number of bytes. -/
def sizeOfBytes : Nat → Option BusSize
  | 1 => some .one
  | 2 => some .two
  | 4 => some .four
  | _ => none

/-- The transaction of a well-formed 4-tuple (30_encoding.md R87). -/
def txnOfTuple (r : RawTxn) : Option Txn :=
  if r.wellFormed then
    match sizeOfBytes r.size, r.dir with
    | some size, .read => some (.read (BitVec.ofNat 16 r.off) size)
    | some size, .write => some (.write (BitVec.ofNat 16 r.off) size (BitVec.ofNat 32 r.data))
    | none, _ => none
  else none

/-- The `count` upper-case hexadecimal digits of `n`, the most significant first, as listings show them. -/
def hexDigits : Nat → Nat → List Char
  | 0, _ => []
  | count + 1, n =>
    hexDigits count (n / 16) ++ [Char.ofNat (if n % 16 < 10 then 0x30 + n % 16 else 0x41 + (n % 16 - 10))]

/-- A transaction as a listing writes it, for example `W4 0000 00000001` (30_encoding.md R87). -/
def listing (t : Txn) : List Char :=
  (if txnIsWrite t then 'W' else 'R') :: hexDigits 1 (sizeBytes (txnSize t)) ++ ' ' :: hexDigits 4 (txnTuple t).off
    ++ ' ' :: hexDigits 8 (txnTuple t).data

/-- A line of a host program (30_encoding.md R86); a read may name the value it returns. -/
inductive Line where
  | load (size : BusSize) (off : Off) (name : Option (List Char))
  | store (size : BusSize) (off : Off) (data : Word)
deriving DecidableEq, Repr

/-- The transaction of a line, column Transaction of the table of 30_encoding.md R86. -/
def lineTxn : Line → Txn
  | .load size off _ => .read off size
  | .store size off data => .write off size data

/-- The pseudo-instructions (30_encoding.md R88). -/
inductive Pseudo where
  | cmdNop
  | cmdHash
  | cmdInit
  | wait
  | setlen (len : Word)
  | msg (bytes : List Byte)
  | hash (bytes : List Byte)
  | check
deriving DecidableEq, Repr

/-- `cmd.nop`, `cmd.hash` and `cmd.init`: `sw 0x0000` with the command's word (30_encoding.md R88). -/
def commandOp (i : Instr) : HostOp := .txn (.write 0x0000 .four (encode i))

/-- `setlen L` is `sw 0x0008, L` (30_encoding.md R88). -/
def setlenOp (len : Word) : HostOp := .txn (.write 0x0008 .four len)

/-- The writes of `msg`, from bus offset `off` on: a word for every four bytes, then a byte for each of the tail
(30_encoding.md R88). DESIGN CHOICE, safe (log 19): the rule speaks of messages that fit the buffer, at most 4096 bytes; for
one longer than 0xF000 bytes, whose offsets would pass 0xFFFF, an offset is taken modulo 2^16. -/
def msgOps (off : Nat) : List Byte → List HostOp
  | b0 :: b1 :: b2 :: b3 :: rest =>
    .txn (.write (BitVec.ofNat 16 off) .four (lanesOf [b0, b1, b2, b3])) :: msgOps (off + 4) rest
  | [b0, b1, b2] =>
    [.txn (.write (BitVec.ofNat 16 off) .one (lanesOf [b0])),
     .txn (.write (BitVec.ofNat 16 (off + 1)) .one (lanesOf [b1])),
     .txn (.write (BitVec.ofNat 16 (off + 2)) .one (lanesOf [b2]))]
  | [b0, b1] =>
    [.txn (.write (BitVec.ofNat 16 off) .one (lanesOf [b0])),
     .txn (.write (BitVec.ofNat 16 (off + 1)) .one (lanesOf [b1]))]
  | [b0] => [.txn (.write (BitVec.ofNat 16 off) .one (lanesOf [b0]))]
  | [] => []

/-- `msg "bytes"`: the writes, then `setlen L` (30_encoding.md R88), with L taken modulo 2^32 (DESIGN CHOICE, safe, log 19:
the rule speaks of messages that fit the buffer). -/
def msgExpansion (bytes : List Byte) : List HostOp :=
  msgOps msgBufBase bytes ++ [setlenOp (BitVec.ofNat 32 bytes.length)]

/-- The expansion of a pseudo-instruction (30_encoding.md R88). -/
def expandPseudo : Pseudo → List HostOp
  | .cmdNop => [commandOp .nop]
  | .cmdHash => [commandOp .hash]
  | .cmdInit => [commandOp .init]
  | .wait => [.wait]
  | .setlen len => [setlenOp len]
  | .msg bytes => msgExpansion bytes
  | .hash bytes => msgExpansion bytes ++ [commandOp .hash, .wait]
  | .check => [.txn statusRead]

/-- The condition of `check` on the STATUS value read: "s[11:8] = 0 and s[1] = 1" (30_encoding.md R88). -/
def checkPasses (statusValue : Word) : Bool :=
  decide (statusValue.extractLsb' 8 4 = 0) && statusValue.getLsbD 1

/-- The value of a digit character in the given base, if it is one. -/
def digitValue (base : Nat) (c : Char) : Option Nat :=
  if 0x30 ≤ c.toNat ∧ c.toNat ≤ 0x39 then some (c.toNat - 0x30)
  else if base = 16 ∧ 0x61 ≤ c.toNat ∧ c.toNat ≤ 0x66 then some (c.toNat - 0x61 + 10)
  else if base = 16 ∧ 0x41 ≤ c.toNat ∧ c.toNat ≤ 0x46 then some (c.toNat - 0x41 + 10)
  else none

/-- The value of a string of digits, from the value of the digits before it. -/
def digitsValue (base : Nat) : Nat → List Char → Option Nat
  | acc, [] => some acc
  | acc, c :: cs =>
    match digitValue base c with
    | some d => digitsValue base (acc * base + d) cs
    | none => none

/-- A numeral: "OFF and VAL are hexadecimal or decimal numerals" (30_encoding.md R86). -/
def numeral : List Char → Option Nat
  | '0' :: 'x' :: c :: cs => digitsValue 16 0 (c :: cs)
  | c :: cs => digitsValue 10 0 (c :: cs)
  | [] => none

/-- A numeral below a bound. -/
def numeralBelow (bound : Nat) (cs : List Char) : Option Nat :=
  match numeral cs with
  | some v => if v < bound then some v else none
  | none => none

/-- The fields of a line; `word` holds the characters of the field being read. DESIGN CHOICE, safe (log 19): the rule shows a
comma and a space between two operands and says nothing of other punctuation; here any run of spaces and commas separates
two fields, so `sw OFF VAL` and stray commas are read as the line they would be with the rule's punctuation. -/
def fieldsFrom : List Char → List Char → List (List Char)
  | word, [] => if word = [] then [] else [word]
  | word, c :: cs =>
    if c = ' ' ∨ c = ',' then (if word = [] then fieldsFrom [] cs else word :: fieldsFrom [] cs)
    else fieldsFrom (word ++ [c]) cs

/-- The fields of a line, without its comment: "A line may be followed by `; comment`" (30_encoding.md R86). -/
def lineFields (cs : List Char) : List (List Char) := fieldsFrom [] (cs.takeWhile (fun c => decide (c ≠ ';')))

/-- The direction letter of a listing (30_encoding.md R87). -/
def dirOfLetter (c : Char) : Option Dir :=
  if c = 'R' then some .read else if c = 'W' then some .write else none

/-- A transaction read back from a listing of it (30_encoding.md R87). -/
def readListing (cs : List Char) : Option Txn :=
  match fieldsFrom [] cs with
  | [[d, n], off, val] =>
    match dirOfLetter d, digitValue 10 n, digitsValue 16 0 off, digitsValue 16 0 val with
    | some dir, some size, some o, some v =>
      if off.length = 4 ∧ val.length = 8 then txnOfTuple ⟨dir, size, o, v⟩ else none
    | _, _, _, _ => none
  | _ => none

/-- The size of `lw`, `lh` and `lb` (30_encoding.md R86). -/
def loadSize (m : List Char) : Option BusSize :=
  if m = ['l', 'w'] then some .four
  else if m = ['l', 'h'] then some .two
  else if m = ['l', 'b'] then some .one
  else none

/-- The size of `sw`, `sh` and `sb` (30_encoding.md R86). -/
def storeSize (m : List Char) : Option BusSize :=
  if m = ['s', 'w'] then some .four
  else if m = ['s', 'h'] then some .two
  else if m = ['s', 'b'] then some .one
  else none

/-- A line read from its characters (30_encoding.md R86); none where its fields are those of no line of that table. How its
punctuation may vary is `fieldsFrom`'s choice (log 19). -/
def parseLine (cs : List Char) : Option Line :=
  match lineFields cs with
  | [m, off] =>
    match loadSize m, numeralBelow 0x10000 off with
    | some size, some o => some (.load size (BitVec.ofNat 16 o) none)
    | _, _ => none
  | [m, off, val] =>
    match storeSize m, numeralBelow 0x10000 off, numeralBelow 0x100000000 val with
    | some size, some o, some v => some (.store size (BitVec.ofNat 16 o) (BitVec.ofNat 32 v))
    | _, _, _ => none
  | [m, off, arrow, name] =>
    match loadSize m, numeralBelow 0x10000 off with
    | some size, some o => if arrow = ['-', '>'] then some (.load size (BitVec.ofNat 16 o) (some name)) else none
    | _, _ => none
  | _ => none

/-- A pseudo-instruction without a byte string, read from its characters (30_encoding.md R88), its fields separated as
`fieldsFrom` says (log 19). -/
def parsePseudo (cs : List Char) : Option Pseudo :=
  match lineFields cs with
  | [m] =>
    if m = ['c', 'm', 'd', '.', 'n', 'o', 'p'] then some .cmdNop
    else if m = ['c', 'm', 'd', '.', 'h', 'a', 's', 'h'] then some .cmdHash
    else if m = ['c', 'm', 'd', '.', 'i', 'n', 'i', 't'] then some .cmdInit
    else if m = ['w', 'a', 'i', 't'] then some .wait
    else if m = ['c', 'h', 'e', 'c', 'k'] then some .check
    else none
  | [m, len] =>
    if m = ['s', 'e', 't', 'l', 'e', 'n'] then (numeralBelow 0x100000000 len).map (fun v => .setlen (BitVec.ofNat 32 v))
    else none
  | _ => none

/-- The operations of one line of a host program. -/
def lineOps (cs : List Char) : Option (List HostOp) :=
  match parseLine cs, parsePseudo cs with
  | some l, _ => some [.txn (lineTxn l)]
  | none, some p => some (expandPseudo p)
  | none, none => none

/-- A host program, "a sequence of bus transactions, one per line" (30_encoding.md R86), loaded behind what the host has
still to issue. -/
def loadProgram (ops : List HostOp) (s : State) : State := { s with program := s.program ++ ops }

end Sys2Proof.Machine
end

