-- ==== Sys2Proof/Machine/Platform.lean ====
section
/-!
DEFINITION. A platform with several CORE instances, "each at its own CORE_BASE" and with its own state (60_exceptions.md
R235, 10_state.md R42). "Instances have no identifiers and no inter-instance signals".
-/

namespace Sys2Proof.Machine

/-- One CORE instance: its bus address and its state (60_exceptions.md R235). -/
structure CoreInstance where
  base : Nat
  core : State
deriving DecidableEq, Repr

/-- A transaction on the platform's bus, at an address: `toTxn` gives the transaction at an offset. It goes to the
instance whose window holds the address (20_memory.md R51); an address in no window reaches no CORE. -/
def platformAccess (addr : Nat) (toTxn : Off → Txn) :
    List CoreInstance → Host.Outcome (List CoreInstance) Fault Refusal
  | [] => .next []
  | c :: cs =>
    match offsetIn c.base addr with
    | some off => mapNext (fun s => { c with core := s } :: cs) (transact (toTxn off) c.core)
    | none => mapNext (fun rest => c :: rest) (platformAccess addr toTxn cs)

/-- One step of instance number `i`: "Each runs independently of the others" (60_exceptions.md R235). -/
def platformStep : Nat → List CoreInstance → Host.Outcome (List CoreInstance) Fault Refusal
  | _, [] => .next []
  | 0, c :: cs => mapNext (fun s => { c with core := s } :: cs) (takeTurn c.core)
  | i + 1, c :: cs => mapNext (fun rest => c :: rest) (platformStep i cs)

/-- A platform with the one CORE of this model, at CORE_BASE (00_scope.md R9). -/
def singleCore (s : State) : List CoreInstance := [⟨Config.coreBase, s⟩]

end Sys2Proof.Machine
end

