-- ==== Sys2Proof/Safety.lean ====
section
/-!
DEFINITION. What claims are stated in terms of: the invariant of the machine, runs of the sequencer, and the digest a
HASH in progress will deliver.
-/

namespace Sys2Proof.Machine

/-- `count` turns of the core sequencer, with nothing between them. -/
def sequencerRun : Nat → State → Host.Outcome State Fault Refusal
  | 0, s => .next s
  | count + 1, s =>
    match sequencerTurn s with
    | .next s' => sequencerRun count s'
    | .fault r => .fault r
    | .refused r => .refused r

/-- The facts that hold of MSG_BUF's cells: canonical form, and every cell inside the buffer (10_state.md R31). -/
structure BufferInv (s : State) : Prop where
  wf : Memory.wf s.mem
  inside : ∀ c ∈ s.mem, msgBufBase ≤ c.1 ∧ c.1 < msgBufBase + s.msgCap.toNat

/-- PAD_LEN's "legal values are 0 and the multiples of 64 from 64 up to 64·ceil((MSG_BUF_BYTES + 9)/64)" (10_state.md
R33). -/
def PadLenLegal (s : State) : Prop :=
  s.padLen = 0 ∨ (64 ≤ s.padLen.toNat ∧ s.padLen.toNat % 64 = 0 ∧ s.padLen.toNat ≤ paddedLength s.msgCap.toNat)

/-- What holds while a HASH is in progress: it runs on the message that MSG_BUF and MSG_LEN still hold (20_memory.md
R66), and H is the fold of the blocks done so far (44_engine.md R185, R191). -/
structure BusyInv (s : State) : Prop where
  notDone : s.done = false
  errCode : s.err = .none ∨ s.err = .cmdWhileBusy ∨ s.err = .writeWhileBusy
  lengthKept : s.lAcc = s.msgLen
  lengthFits : s.msgLen.toNat ≤ s.msgCap.toNat
  padded : s.p = pad (message s)
  blocks : s.n = blockCount s.msgLen.toNat
  padLen : s.padLen.toNat = paddedLength s.msgLen.toNat
  index : s.j ≤ s.n
  folded : s.h = hashBlocks s.p s.j

/-- The invariant of the machine. -/
structure Inv (s : State) : Prop where
  buffer : BufferInv s
  capacity : s.msgCap.toNat ≤ Config.msgBufBytesMax
  padLen : PadLenLegal s
  idle : s.phase = .idle → s.h = iv
  busy : s.phase = .processing → BusyInv s
  doneClean : s.done = true → s.err = .none ∨ s.err = .cmdWhileBusy ∨ s.err = .writeWhileBusy
  drawn : s.bufDraw ≤ s.draws

/-- The digest the HASH in progress will deliver: HashWords of its message (44_engine.md R191). -/
def promisedDigest (s : State) : Words8 := hashWords (message s)

/-- No reset and no power-up is among the turns to come. -/
def noResetAhead (s : State) : Bool := s.turns.all (fun turn => turn == .host || turn == .core)

/-- The host's turn is next and its next operation is a 32-bit write of `w` to CMD. -/
def IssuesWord (s : State) (w : Word) : Prop :=
  nextTurn s = .host ∧ ∃ rest, s.program = .txn (.write 0x0000 .four w) :: rest

/-- The turn that is next is an external event: a reset or a power-up (70_reset_and_hazards.md R250, R252). -/
def ResetNext (s : State) : Prop := nextTurn s = .reset ∨ nextTurn s = .powerUp

/-- The turn that is next clears STATUS.ERR: "only on an accepted HASH (rule R182), on INIT (rule R187), or on reset"
(60_exceptions.md R226). -/
def ClearsError (s : State) : Prop :=
  ResetNext s ∨
  (s.phase = .idle ∧ (IssuesWord s (encode .init) ∨
    (IssuesWord s (encode .hash) ∧ s.msgLen.toNat ≤ s.msgCap.toNat)))

/-- The host's turn is next and its next operation is a write that is admitted, to the region `r`, of `data`. -/
def IssuesWrite (s : State) (r : Region) (data : Word) : Prop :=
  nextTurn s = .host ∧ ∃ off size rest, s.program = .txn (.write off size data) :: rest ∧
    admission s.msgCap.toNat (.write off size data) = .admitted r

/-- The turn that is next executes `raise Error`, told from the state before it: while busy, an admitted write to CMD, MSG_LEN
or MSG_BUF (44_engine.md R181, 20_memory.md R71); while Idle, a write to CMD of an illegal word (R189) or of a HASH with
MSG_LEN > MSG_BUF_BYTES (R182). -/
def RaisesError (s : State) : Prop :=
  (s.phase = .processing ∧ ∃ r data, (r = .cmd ∨ r = .msgLen ∨ r = .msgBuf) ∧ IssuesWrite s r data) ∨
  (s.phase = .idle ∧ ∃ data, IssuesWrite s .cmd data ∧
    ((∃ why, decode data = .illegal why) ∨ (decode data = .cmd .hash ∧ s.msgCap.toNat < s.msgLen.toNat)))

end Sys2Proof.Machine
end

