-- ==== Sys2Proof/Certificates/Slice0/Obligations.lean ====
section
/-!
DEFINITION. The statements about the machine, from the numbered rules of spec/. Each docstring names the rules it
formalises and quotes what it says in full.
-/

open Sys2Proof Sys2Proof.Machine

/-! ## The command word and the step -/

/-- 44_engine.md R180 and 20_memory.md R64, R50: a step of each agent. Where the host's turn is next, the step is the host's
turn on the state with that turn taken off, and where its operation is a transaction, whichever, the step is `transact` of it
on the state with the operation taken off too; where that is a write to CMD of a word that decodes to a command, the step is
`exec` of that command, and the write is answered OKAY (while busy too, where `exec` drops the command). Where the
sequencer's turn is next, the step is its turn. Turns and the host's program are the model's own (logs 8, 9). -/
def Obligations.StepRunsDecodedCommand : Prop :=
  (∀ s : State, nextTurn s = .host → step s = hostTurn { s with turns := s.turns.tail }) ∧
  (∀ s : State, nextTurn s = .core → step s = sequencerTurn { s with turns := s.turns.tail }) ∧
  (∀ (s : State) (x : Txn) (rest : List HostOp), nextTurn s = .host → s.program = .txn x :: rest →
    step s = transact x { s with turns := s.turns.tail, program := rest }) ∧
  (∀ (s : State) (w : Word) (i : Instr) (rest : List HostOp),
    nextTurn s = .host → s.program = .txn (.write 0x0000 .four w) :: rest → decode w = .cmd i →
    step s = mapNext (respond .okay 0) (exec i { s with turns := s.turns.tail, program := rest }))

/-- 44_engine.md R180, every line of the dispatch: busy first, whatever the word; else by the decoding; always OKAY; and a
CMD write of the wrong size or alignment is a bus ERROR and changes nothing. -/
def Obligations.CmdWriteDispatch : Prop :=
  ∀ (s : State) (w : Word),
    (s.phase = .processing →
      transact (.write 0x0000 .four w) s = .next (respond .okay 0 { s with err := .cmdWhileBusy, done := false })) ∧
    (s.phase = .idle → ∀ i, decode w = .cmd i →
      transact (.write 0x0000 .four w) s = mapNext (respond .okay 0) (exec i s)) ∧
    (s.phase = .idle → ∀ why, decode w = .illegal why →
      transact (.write 0x0000 .four w) s = .next (respond .okay 0 { s with err := .illegalCmd, done := false })) ∧
    (∀ (off : Off) (size : BusSize), off.toNat < 4 → (size ≠ .four ∨ off.toNat % sizeBytes size ≠ 0) →
      transact (.write off size w) s = .next (respond .error 0 s))

/-- 30_encoding.md R83 and R85: which words select NOP, HASH and INIT, and which of the two illegal kinds every other
word is. -/
def Obligations.DecodeIsTheOpcodeMap : Prop :=
  ∀ w : Word,
    (decode w = .cmd .nop ↔ w = 0x00000000) ∧
    (decode w = .cmd .hash ↔ w = 0x00000001) ∧
    (decode w = .cmd .init ↔ w = 0x00000002) ∧
    (decode w = .illegal .reservedBits ↔ w.extractLsb' 8 24 ≠ 0) ∧
    (decode w = .illegal .undefinedOpcode ↔ w.extractLsb' 8 24 = 0 ∧ 3 ≤ (w.extractLsb' 0 8).toNat)

/-- 30_encoding.md R80-R85: a command is read back from its word, from its bytes in the lanes, and from its table bits,
and no other word decodes to it. -/
def Obligations.DecodeInvertsEncode : Prop :=
  ∀ i : Instr, decode (encode i) = .cmd i ∧ decodeBytes (bytesLE 4 (encode i).toNat) = .cmd i ∧
    decodeTableWord 32 (encode i).toNat = some i ∧ ∀ w, decode w = .cmd i → w = encode i

/-- 30_encoding.md R83, R84, R81: words written out from the opcode map and the illegal words the rules name. -/
def Obligations.SampleWordsDecode : Prop :=
  decode 0b00000000000000000000000000000000 = .cmd .nop ∧
  decode 0b00000000000000000000000000000001 = .cmd .hash ∧
  decode 0b00000000000000000000000000000010 = .cmd .init ∧
  decode 0x00000003 = .illegal .undefinedOpcode ∧
  decode 0x00000101 = .illegal .reservedBits ∧
  decode 0xFFFFFFFF = .illegal .reservedBits ∧
  decodeBytes [0x01, 0x00] = .illegal .notOneWord

/-- 30_encoding.md R87: every transaction is read back from its listing, so a listing drops no bit of the 4-tuple. The
letter case of the digits is the model's choice (log 19). -/
def Obligations.ListingRoundTrip : Prop := ∀ t : Txn, readListing (listing t) = some t

/-! ## The three commands -/

/-- 44_engine.md R188: NOP changes nothing in an Idle CORE and is never illegal; while busy R181 applies. -/
def Obligations.NopDoesNothing : Prop :=
  decode 0x00000000 = .cmd .nop ∧
  ∀ s : State,
    (s.phase = .idle → exec .nop s = .next s) ∧
    (s.phase = .processing → exec .nop s = .next { s with err := .cmdWhileBusy, done := false })

/-- 44_engine.md R187: INIT writes H, DIGEST, PAD_LEN and STATUS with their reset values and nothing else; while busy it is
dropped. -/
def Obligations.InitRestoresConstruction : Prop :=
  decode 0x00000002 = .cmd .init ∧
  ∀ s : State,
    (s.phase = .idle → ∃ t, exec .init s = .next t ∧
      t = { s with h := iv, digest := ⟨0, 0, 0, 0, 0, 0, 0, 0⟩, padLen := 0, err := .none, done := false } ∧
      status t = 0x00000000 ∧ t.h = State.reset.h ∧ t.digest = State.reset.digest ∧ t.padLen = State.reset.padLen) ∧
    (s.phase = .processing → exec .init s = .next { s with err := .cmdWhileBusy, done := false })

/-- 44_engine.md R182: HASH in an Idle CORE. Accepted when MSG_LEN ≤ MSG_BUF_BYTES: L_acc, P = Pad(MSG_BUF[0..L)), N, j,
PAD_LEN, ERR, DONE and phase are written and nothing else, and STATUS reads 1; the message is the L bytes of MSG_BUF
below L and no others. Refused with LEN_TOO_LARGE otherwise: only ERR and DONE change, and the same HASH is refused again
(60_exceptions.md R227). While busy it is dropped. -/
def Obligations.HashAcceptsOrRefuses : Prop :=
  decode 0x00000001 = .cmd .hash ∧
  ∀ s : State,
    (s.phase = .idle → s.msgLen.toNat ≤ s.msgCap.toNat → ∃ t, exec .hash s = .next t ∧
      t = { s with lAcc := s.msgLen, p := pad (message s), n := (pad (message s)).length / 64, j := 0,
                   padLen := BitVec.ofNat 32 (pad (message s)).length, err := .none, done := false,
                   phase := .processing } ∧
      (message s).length = s.msgLen.toNat ∧ (∀ x < s.msgLen.toNat, (message s).getD x 0 = msgBufByte s x) ∧
      status t = 0x00000001) ∧
    (s.phase = .idle → s.msgCap.toNat < s.msgLen.toNat → ∃ t, exec .hash s = .next t ∧
      t = { s with err := .lenTooLarge, done := false } ∧ status t = 0x00000200 ∧ exec .hash t = .next t) ∧
    (s.phase = .processing → exec .hash s = .next { s with err := .cmdWhileBusy, done := false })

/-- The frame of the three commands (44_engine.md R181, R182, R187, R188): what each leaves unchanged. MSG_LEN, MSG_CAP,
every byte of MSG_BUF, W, a..h, t and the agents' lists never change; INIT alone writes DIGEST and H; HASH alone writes
the sequencer's registers; NOP writes no register but STATUS, and that only while busy. -/
def Obligations.CommandFrame : Prop :=
  ∀ (i : Instr) (s t : State), exec i s = .next t →
    t.msgLen = s.msgLen ∧ t.msgCap = s.msgCap ∧ t.mem = s.mem ∧ (∀ x, msgBufByte t x = msgBufByte s x) ∧
    t.w = s.w ∧ t.v = s.v ∧ t.t = s.t ∧ t.program = s.program ∧ t.turns = s.turns ∧ t.responses = s.responses ∧
    t.draws = s.draws ∧ t.bufDraw = s.bufDraw ∧
    (i ≠ .init → t.h = s.h ∧ t.digest = s.digest) ∧
    (i ≠ .hash → t.phase = s.phase ∧ t.lAcc = s.lAcc ∧ t.p = s.p ∧ t.n = s.n ∧ t.j = s.j) ∧
    (i = .nop → t.padLen = s.padLen) ∧
    (i = .nop → s.phase = .idle → t.err = s.err ∧ t.done = s.done) ∧
    (s.phase = .processing → t.h = s.h ∧ t.digest = s.digest ∧ t.padLen = s.padLen ∧ t.phase = s.phase ∧
      t.lAcc = s.lAcc ∧ t.p = s.p ∧ t.n = s.n ∧ t.j = s.j)

/-! ## Errors -/

/-- 44_engine.md R181: any word written to CMD while busy is dropped with CMD_WHILE_BUSY; the HASH in progress is not
disturbed, and when it finalizes DONE is set and ERR is kept. -/
def Obligations.CommandWhileBusyDropped : Prop :=
  (∀ (s : State) (w : Word), s.phase = .processing →
    transact (.write 0x0000 .four w) s = .next (respond .okay 0 { s with err := .cmdWhileBusy, done := false })) ∧
  (∀ s : State, s.phase = .processing → s.j = s.n → ∃ t, sequencerTurn s = .next t ∧ t.done = true ∧ t.err = s.err)

/-- 44_engine.md R189: an illegal word (RSVD ≠ 0, or OPC in 0x03..0xFF) written to CMD while Idle sets ERR = ILLEGAL_CMD and
DONE = 0 and changes nothing else; STATUS then reads 0x100. -/
def Obligations.IllegalCommandRefused : Prop :=
  ∀ (s : State) (w : Word), s.phase = .idle → (w.extractLsb' 8 24 ≠ 0 ∨ 3 ≤ (w.extractLsb' 0 8).toNat) →
    ∃ t, transact (.write 0x0000 .four w) s = .next (respond .okay 0 t) ∧
      t = { s with err := .illegalCmd, done := false } ∧ status t = 0x00000100

/-- 60_exceptions.md R221: `raise Error(code)` writes ERR and clears DONE, and nothing else changes; a later error
overwrites an earlier one. -/
def Obligations.RaiseErrorExact : Prop :=
  ∀ (code later : ErrCode) (s : State),
    raiseError code s = { s with err := code, done := false } ∧
    raiseError later (raiseError code s) = raiseError later s ∧
    (status (raiseError code s)).extractLsb' 8 4 = errBits code ∧ (status (raiseError code s)).getLsbD 1 = false

/-- 60_exceptions.md R224 and 20_memory.md R71: one transaction, one error, in the order admission, busy, illegal word,
length. The third clause is R71: while busy an admitted Write to MSG_LEN or MSG_BUF is dropped with WRITE_WHILE_BUSY and
OKAY. -/
def Obligations.ErrorPriority : Prop :=
  ∀ (s : State) (off : Off) (size : BusSize) (data : Word),
    (∀ why, admission s.msgCap.toNat (.write off size data) = .rejected why →
      transact (.write off size data) s = .next (respond .error 0 s)) ∧
    (admission s.msgCap.toNat (.write off size data) = .admitted .cmd → s.phase = .processing →
      transact (.write off size data) s = .next (respond .okay 0 { s with err := .cmdWhileBusy, done := false })) ∧
    (∀ r, admission s.msgCap.toNat (.write off size data) = .admitted r → r ≠ .cmd → s.phase = .processing →
      transact (.write off size data) s = .next (respond .okay 0 { s with err := .writeWhileBusy, done := false })) ∧
    (admission s.msgCap.toNat (.write off size data) = .admitted .cmd → s.phase = .idle →
      (∃ why, decode data = .illegal why) →
      transact (.write off size data) s = .next (respond .okay 0 { s with err := .illegalCmd, done := false })) ∧
    (admission s.msgCap.toNat (.write off size data) = .admitted .cmd → s.phase = .idle → decode data = .cmd .hash →
      s.msgCap.toNat < s.msgLen.toNat →
      transact (.write off size data) s = .next (respond .okay 0 { s with err := .lenTooLarge, done := false }))

/-- 60_exceptions.md R226: a step clears ERR if and only if it is an accepted HASH, an INIT, or a reset, and clears DONE if
and only if it is one of those or raises an error; both are conditions on the state before the step. A NOP clears nothing,
being none of them. A step is a turn of one of the model's agents (log 8). -/
def Obligations.ErrorClearingExact : Prop :=
  ∀ s t : State, step s = .next t →
    (s.err ≠ .none → (t.err = .none ↔ ClearsError s)) ∧
    (s.done = true → (t.done = false ↔ (ClearsError s ∨ RaisesError s)))

/-- 10_state.md R35, R36: the fields of STATUS. -/
def Obligations.StatusFields : Prop :=
  ∀ s : State,
    ((status s).getLsbD 0 = true ↔ s.phase = .processing) ∧
    (status s).getLsbD 1 = s.done ∧
    (status s).extractLsb' 2 6 = 0 ∧
    ((status s).extractLsb' 8 4).toNat =
      (match s.err with | .none => 0 | .illegalCmd => 1 | .lenTooLarge => 2 | .cmdWhileBusy => 3 | .writeWhileBusy => 4) ∧
    (status s).extractLsb' 12 20 = 0

/-! ## The core sequencer -/

/-- 44_engine.md R185: the block step, enabled when phase = Processing and j < N: W <- Schedule(Chunk(P, j)),
H <- Compress(H, W), j <- j + 1; of the rest only the Compressor's a..h and t change. -/
def Obligations.BlockStepCompresses : Prop :=
  ∀ s : State, s.phase = .processing → s.j < s.n → ∃ t, sequencerTurn s = .next t ∧
    t.w = schedule (chunk s.p s.j) ∧ t.h = compress s.h (schedule (chunk s.p s.j)) ∧ t.j = s.j + 1 ∧
    t = { s with w := t.w, h := t.h, j := t.j, v := t.v, t := t.t }

/-- 44_engine.md R186: Finalize, enabled when phase = Processing and j = N: DIGEST <- H, then H <- IV, phase <- Idle, DONE
<- 1, and nothing else. -/
def Obligations.FinalizeLatchesDigest : Prop :=
  ∀ s : State, s.phase = .processing → s.j = s.n →
    sequencerTurn s = .next { s with digest := s.h, h := iv, phase := .idle, done := true }

/-- Where 44_engine.md R185 and R186 enable no step of the sequencer. While Idle its turn changes nothing: DEDUCED, log 12.
In a busy state with j > N the machine stops, and it stops in no other state: the model's choice, log 13. StepKeepsInv rules
such states out. -/
def Obligations.SequencerStopsOnlyPastTheEnd : Prop :=
  (∀ s : State, s.phase = .idle → sequencerTurn s = .next s) ∧
  (∀ s : State, (∀ t, step s ≠ .next t) ↔ (nextTurn s = .core ∧ s.phase = .processing ∧ s.n < s.j)) ∧
  (∀ s : State, (∀ t, step s ≠ .next t) → step s = .fault .sequencerStuck)

/-- 43_compressor.md R160, R165: after block start and `count` rounds, t = count and a..h are those of rounds 0 to
count-1, round t with K[t] and W[t]; H and W are not written. A block has exactly 64 rounds, and then the fold. -/
def Obligations.RoundLoopRunsInOrder : Prop :=
  (∀ s : State, startBlock s =
    { s with v := ⟨s.h.w0, s.h.w1, s.h.w2, s.h.w3, s.h.w4, s.h.w5, s.h.w6, s.h.w7⟩, t := 0 }) ∧
  (∀ (count : Nat) (s : State),
    roundLoop count (startBlock s) = { s with v := roundsUpTo (loadWorking s.h) s.w count, t := count } ∧
    roundsUpTo s.v s.w (count + 1) = roundUpdate (roundsUpTo s.v s.w count) (k count) (scheduleWord s.w count)) ∧
  (∀ s : State, compressBlock s = { s with
    v := roundsUpTo (loadWorking s.h) s.w 64, t := 64, h := foldWorking s.h (roundsUpTo (loadWorking s.h) s.w 64) })

/-- 43_compressor.md R161-R164: one round. Every new working register is a function of the old ones, of K[t] and of W[t];
sums are modulo 2^32. -/
def Obligations.RoundUpdatesWorking : Prop :=
  ∀ s : State,
    let kt := kTable.getD s.t 0
    let wt := s.w.toList.getD s.t 0
    let t1 := (s.v.h.toNat + (bigSigma1 s.v.e).toNat + (ch s.v.e s.v.f s.v.g).toNat + kt.toNat + wt.toNat) % 2 ^ 32
    let t2 := ((bigSigma0 s.v.a).toNat + (maj s.v.a s.v.b s.v.c).toNat) % 2 ^ 32
    (temp1 s.v kt wt).toNat = t1 ∧ (temp2 s.v).toNat = t2 ∧
    roundStep s = { s with
      v := ⟨BitVec.ofNat 32 (t1 + t2), s.v.a, s.v.b, s.v.c, BitVec.ofNat 32 (s.v.d.toNat + t1), s.v.e, s.v.f, s.v.g⟩,
      t := s.t + 1 }

/-- 43_compressor.md R166: the fold adds each working register to its own word of H, modulo 2^32. -/
def Obligations.FoldAddsEachWord : Prop :=
  ∀ (x : Words8) (v : Working),
    foldWorking x v = ⟨x.w0 + v.a, x.w1 + v.b, x.w2 + v.c, x.w3 + v.d, x.w4 + v.e, x.w5 + v.f, x.w6 + v.g, x.w7 + v.h⟩ ∧
    (foldWorking x v).w0.toNat = (x.w0.toNat + v.a.toNat) % 2 ^ 32

/-! ## The datapath -/

/-- 40_arith.md R100: ModularAdd is the sum modulo 2^32; one operand is returned as it is; the empty list is refused. -/
def Obligations.ModularAddIsTheSum : Prop :=
  (∀ (v : Word) (vs : List Word),
    (modularAdd v vs).toNat = (v.toNat + (vs.map BitVec.toNat).sum) % 2 ^ 32 ∧
    modularAddChecked (v :: vs) = .ok (modularAdd v vs)) ∧
  (∀ v : Word, modularAdd v [] = v) ∧
  modularAddChecked [] = .error .emptyAdderList

/-- 40_arith.md R101: adding pairwise with truncation after each addition gives the same, and the order of the operands
does not matter. -/
def Obligations.ModularAddLaws : Prop :=
  (∀ (v : Word) (vs : List Word), modularAdd v vs = vs.foldl (fun acc x => modularAdd acc [x]) v) ∧
  (∀ xs ys : List Word, xs.Perm ys → modularAddChecked xs = modularAddChecked ys)

/-- 40_arith.md R102: "bit i of the result is bit (i + n) mod 32 of x", for n in 1..31. -/
def Obligations.RotationMovesBits : Prop :=
  ∀ (x : Word) (n i : Nat), 1 ≤ n → n ≤ 31 → i < 32 → (rotr x n).getLsbD i = x.getLsbD ((i + n) % 32)

/-- 40_arith.md R103, R105-R110: SHR brings zeros in at bit 31; each bit of the four mixing functions is the exclusive OR
of the bits its rotations and its shift bring there; ch takes f where e is 1 and g where e is 0; maj is the majority of the
three bits. -/
def Obligations.DatapathBitByBit : Prop :=
  ∀ (x y z : Word) (n i : Nat), i < 32 →
    (shr x n).getLsbD i = (decide (i + n < 32) && x.getLsbD (i + n)) ∧
    (smallSigma0 x).getLsbD i =
      (x.getLsbD ((i + 7) % 32) ^^ x.getLsbD ((i + 18) % 32) ^^ (decide (i + 3 < 32) && x.getLsbD (i + 3))) ∧
    (smallSigma1 x).getLsbD i =
      (x.getLsbD ((i + 17) % 32) ^^ x.getLsbD ((i + 19) % 32) ^^ (decide (i + 10 < 32) && x.getLsbD (i + 10))) ∧
    (bigSigma0 x).getLsbD i =
      (x.getLsbD ((i + 2) % 32) ^^ x.getLsbD ((i + 13) % 32) ^^ x.getLsbD ((i + 22) % 32)) ∧
    (bigSigma1 x).getLsbD i =
      (x.getLsbD ((i + 6) % 32) ^^ x.getLsbD ((i + 11) % 32) ^^ x.getLsbD ((i + 25) % 32)) ∧
    (ch x y z).getLsbD i = (if x.getLsbD i then y.getLsbD i else z.getLsbD i) ∧
    ((maj x y z).getLsbD i = true ↔ 2 ≤ (x.getLsbD i).toNat + (y.getLsbD i).toNat + (z.getLsbD i).toNat)

/-! ## Padding, chunks and the schedule -/

/-- 41_preprocessor.md R131, R142: PaddedLength(L) is the smallest multiple of 64 that is at least L + 9, by either closed
form of the rule, and N is its number of blocks, with the rule's worked values. -/
def Obligations.PaddedLengthSmallest : Prop :=
  ∀ len : Nat, paddedLength len % 64 = 0 ∧ len + 9 ≤ paddedLength len ∧
    (∀ m, m % 64 = 0 → len + 9 ≤ m → paddedLength len ≤ m) ∧ paddedLength len = 64 * ((len + 9 + 63) / 64) ∧
    paddedLength len = 64 * ((len + 8) / 64 + 1) ∧
    blockCount len = paddedLength len / 64 ∧ blockCount len = (len + 8) / 64 + 1 ∧
    (len ≤ 55 → blockCount len = 1) ∧ (56 ≤ len → len ≤ 119 → blockCount len = 2) ∧
    (4088 ≤ len → len ≤ 4096 → blockCount len = 65)

/-- 41_preprocessor.md R132: the document's second wording gives the same length for every L. -/
def Obligations.SecondWordingAgrees : Prop :=
  ∀ len : Nat,
    let r : Int := 64 * ((len + 63) / 64 : Nat)
    (paddedLength len : Int) = if r - len - 1 ≥ 8 then r else r + 64

/-- 41_preprocessor.md R130, R133, R134, R135: every byte of the padded buffer, by its place: the message, the marker,
zeros, and byte k of the 64-bit length field, the most significant first. For messages of 2^61 bytes or more, where the spec
leaves the length field open, its value modulo 2^64 is the model's choice (log 24). -/
def Obligations.PaddedBufferBytes : Prop :=
  ∀ (msg : List Byte) (i : Nat), i < (pad msg).length →
    (pad msg).length = paddedLength msg.length ∧
    (pad msg).getD i 0 =
      if i < msg.length then msg.getD i 0
      else if i = msg.length then 0x80
      else if i < (pad msg).length - 8 then 0x00
      else (BitVec.ofNat 64 (8 * msg.length)).extractLsb' (56 - 8 * (i - ((pad msg).length - 8))) 8

/-- 41_preprocessor.md R136: the properties of Pad. -/
def Obligations.PaddedBufferProperties : Prop :=
  ∀ msg : List Byte, (pad msg).length % 64 = 0 ∧ msg.length + 9 ≤ (pad msg).length ∧
    (pad msg).length ≤ msg.length + 72 ∧ (pad msg).take msg.length = msg

/-- 41_preprocessor.md R140: the N chunks of a buffer of N·64 bytes are 64 bytes each and cover it exhaustively and in
order; a padded buffer has at least one. -/
def Obligations.ChunksCoverTheBuffer : Prop :=
  (∀ (p : List Byte) (n : Nat), p.length = 64 * n →
    (∀ j < n, (chunk p j).length = 64 ∧ ∀ x < 64, (chunk p j).getD x 0 = p.getD (64 * j + x) 0) ∧
    (List.range n).flatMap (chunk p) = p) ∧
  (∀ msg : List Byte, (pad msg).length = 64 * blockCount msg.length ∧ 1 ≤ blockCount msg.length)

/-- 42_scheduler.md R150: W[x] for x = 0..15 is the chunk's four bytes, the first the most significant. -/
def Obligations.ScheduleReadsBigEndian : Prop :=
  ∀ (b : List Byte) (x : Nat), x < 16 →
    (scheduleWord (schedule b) x).toNat =
      (b.getD (4 * x) 0).toNat * 2 ^ 24 + (b.getD (4 * x + 1) 0).toNat * 2 ^ 16 + (b.getD (4 * x + 2) 0).toNat * 2 ^ 8 +
        (b.getD (4 * x + 3) 0).toNat

/-- 42_scheduler.md R151: the recurrence of W[16..63], whose four operands are exactly those of R153. -/
def Obligations.ScheduleRecurrence : Prop :=
  ∀ (b : List Byte) (i : Nat), 16 ≤ i → i < 64 →
    scheduleWord (schedule b) i =
      modularAdd (scheduleWord (schedule b) (i - 16))
        [smallSigma0 (scheduleWord (schedule b) (i - 15)), scheduleWord (schedule b) (i - 7),
         smallSigma1 (scheduleWord (schedule b) (i - 2))]

/-! ## Rendering -/

/-- 44_engine.md R190: Render gives 64 characters, each in [0-9a-f], the word's most significant nibble first, and
DIGEST_HEX is Render(DIGEST) byte for byte. -/
def Obligations.RenderIsLowercaseHex : Prop :=
  ∀ d : Words8, (render d).length = 64 ∧
    ∀ (i x : Nat), i < 8 → x < 8 →
      ∃ n, n = (wordAt d i).toNat / 16 ^ (7 - x) % 16 ∧
        ((render d).getD (8 * i + x) 0).toNat = (if n < 10 then 0x30 + n else 0x61 + (n - 10)) ∧
        digestHexByte d (8 * i + x) = (render d).getD (8 * i + x) 0

/-- 44_engine.md R190, derived: two digests with the same rendering are the same digest. -/
def Obligations.RenderInjective : Prop := ∀ d d' : Words8, render d = render d' → d = d'

/-! ## The bus -/

/-- 20_memory.md R53, with the address map of R56 and the sizes, widths and writable registers they give: which
transactions are admitted, written out by offset and size. -/
def Obligations.AdmissionByOffset : Prop :=
  ∀ (cap : Nat) (t : Txn),
    (∃ r, admission cap t = .admitted r) ↔
      ((txnOff t).toNat % sizeBytes (txnSize t) = 0 ∧
       ((txnSize t = .four ∧ (txnOff t).toNat ≤ 0x10 ∧
          (txnIsWrite t = true → (txnOff t).toNat = 0x0 ∨ (txnOff t).toNat = 0x8)) ∨
        (txnSize t = .four ∧ 0x40 ≤ (txnOff t).toNat ∧ (txnOff t).toNat ≤ 0x7C ∧ txnIsWrite t = false) ∨
        (0x80 ≤ (txnOff t).toNat ∧ (txnOff t).toNat + sizeBytes (txnSize t) ≤ 0xC0 ∧ txnIsWrite t = false) ∨
        (0x1000 ≤ (txnOff t).toNat ∧ (txnOff t).toNat + sizeBytes (txnSize t) ≤ 0x1000 + cap)))

/-- 20_memory.md R54: a transaction that is not admitted gets ERROR with data 0, and no register, memory byte or status
bit changes. -/
def Obligations.RejectedTransactionChangesNothing : Prop :=
  ∀ (t : Txn) (s : State), (∀ r, admission s.msgCap.toNat t ≠ .admitted r) →
    transact t s = .next { s with responses := ⟨.error, 0x00000000⟩ :: s.responses }

/-- 20_memory.md R55: an admitted Read of a word register returns its value with OKAY and changes no register, memory byte
or status bit; CMD reads 0. H[i] is stated for the Idle CORE; while busy R70 governs it. -/
def Obligations.WordRegisterReads : Prop :=
  ∀ s : State,
    transact (.read 0x0000 .four) s = .next (respond .okay 0x00000000 s) ∧
    transact (.read 0x0004 .four) s = .next (respond .okay (status s) s) ∧
    transact (.read 0x0008 .four) s = .next (respond .okay s.msgLen s) ∧
    transact (.read 0x000C .four) s = .next (respond .okay s.padLen s) ∧
    transact (.read 0x0010 .four) s = .next (respond .okay s.msgCap s) ∧
    (∀ i < 8, transact (.read (BitVec.ofNat 16 (0x0060 + 4 * i)) .four) s = .next (respond .okay (wordAt s.digest i) s)) ∧
    (s.phase = .idle → ∀ i < 8,
      transact (.read (BitVec.ofNat 16 (0x0040 + 4 * i)) .four) s = .next (respond .okay (wordAt s.h i) s))

/-- 20_memory.md R70: while busy a read of H[i] returns a free value, a new draw at each read (log 5), whatever H holds;
and every other admitted read returns what it would return with phase = Idle but for STATUS.BUSY. -/
def Obligations.ReadsWhileBusy : Prop :=
  ∀ s : State, s.phase = .processing →
    (∀ i < 8, transact (.read (BitVec.ofNat 16 (0x0040 + 4 * i)) .four) s =
      .next { s with responses := ⟨.okay, Config.hRead s.draws⟩ :: s.responses, draws := s.draws + 1 }) ∧
    (∀ (off : Off) (size : BusSize) (r : Region), admission s.msgCap.toNat (.read off size) = .admitted r → r ≠ .h →
      r ≠ .status →
      transact (.read off size) s = .next (respond .okay (readData r off.toNat size { s with phase := .idle }) s)) ∧
    transact (.read 0x0004 .four) s = .next (respond .okay (status s) s)

/-- 20_memory.md R55 and R63, whole machine: no read changes a register, a memory byte or a status bit, whatever its offset
and size; in an Idle CORE repeating it gives the same answer. -/
def Obligations.ReadsChangeNothing : Prop :=
  ∀ (off : Off) (size : BusSize) (s t : State), transact (.read off size) s = .next t →
    t = { s with responses := t.responses, draws := t.draws } ∧
    (s.phase = .idle → t.draws = s.draws ∧
      ∃ answer, t.responses = answer :: s.responses ∧
        transact (.read off size) t = .next { t with responses := answer :: t.responses })

/-- 20_memory.md R52 and R59: an admitted Read of DIGEST_HEX returns DIGEST_HEX[c] .. DIGEST_HEX[c+n-1] in lanes 0 .. n-1,
and 0 above. -/
def Obligations.DigestHexReadLanes : Prop :=
  ∀ (c : Nat) (size : BusSize) (s : State), c + sizeBytes size ≤ 64 → c % sizeBytes size = 0 →
    ∃ data, transact (.read (BitVec.ofNat 16 (0x0080 + c)) size) s = .next (respond .okay data s) ∧
      ∀ lane < 4, laneByte data lane = if lane < sizeBytes size then digestHexByte s.digest (c + lane) else 0

/-- 20_memory.md R52 and R58: an admitted Read of MSG_BUF returns byte i in bits [7:0] and the following bytes above it,
zero-extended, busy or not. -/
def Obligations.MsgBufReadLanes : Prop :=
  ∀ (i : Nat) (size : BusSize) (s : State), s.msgCap.toNat ≤ 4096 → i + sizeBytes size ≤ s.msgCap.toNat →
    i % sizeBytes size = 0 →
    ∃ data, transact (.read (BitVec.ofNat 16 (0x1000 + i)) size) s = .next (respond .okay data s) ∧
      ∀ lane < 4, laneByte data lane = if lane < sizeBytes size then msgBufByte s (i + lane) else 0

/-- 20_memory.md R57: an admitted Write to MSG_BUF. Idle: byte i + k of MSG_BUF becomes bits [8k+7 : 8k] of the data for k
= 0..n-1, every other byte of MSG_BUF reads as before, and nothing else changes. Busy: WRITE_WHILE_BUSY, and MSG_BUF is
unchanged. OKAY in both cases. -/
def Obligations.MsgBufWrite : Prop :=
  ∀ (i : Nat) (size : BusSize) (data : Word) (s : State), s.msgCap.toNat ≤ 4096 →
    i + sizeBytes size ≤ s.msgCap.toNat → i % sizeBytes size = 0 →
    (s.phase = .idle → ∃ t, transact (.write (BitVec.ofNat 16 (0x1000 + i)) size data) s = .next t ∧
      t = { s with mem := t.mem, responses := ⟨.okay, 0⟩ :: s.responses } ∧
      ∀ x, msgBufByte t x =
        if i ≤ x ∧ x < i + sizeBytes size then data.extractLsb' (8 * (x - i)) 8 else msgBufByte s x) ∧
    (s.phase = .processing → transact (.write (BitVec.ofNat 16 (0x1000 + i)) size data) s =
      .next (respond .okay 0 { s with err := .writeWhileBusy, done := false }))

/-- 20_memory.md R60 and 10_state.md R32: an admitted Write to MSG_LEN. Idle: every bit is written and reads back, whatever
the value, and nothing else changes. Busy: WRITE_WHILE_BUSY. OKAY in both cases. -/
def Obligations.MsgLenWrite : Prop :=
  ∀ (data : Word) (s : State),
    (s.phase = .idle → ∃ t, transact (.write 0x0008 .four data) s = .next t ∧
      t = respond .okay 0 { s with msgLen := data } ∧
      transact (.read 0x0008 .four) t = .next (respond .okay data t)) ∧
    (s.phase = .processing → transact (.write 0x0008 .four data) s =
      .next (respond .okay 0 { s with err := .writeWhileBusy, done := false }))

/-! ## Reset -/

/-- 70_reset_and_hazards.md R250, R251, R252: a reset or a power-up, in any state, busy or not: every register takes its
reset value and MSG_CAP is kept; the HASH in progress is abandoned, so no Finalize follows and DIGEST is 0. A reset keeps
MSG_BUF; after a power-up every byte of it is the free value of a new power-up (log 4), another than the one before in every
state that meets the invariant. Both events are turns of the model (log 8). -/
def Obligations.ResetSetsEveryRegister : Prop :=
  ∀ s : State, ResetNext s → ∃ t, step s = .next t ∧
    t.h = iv ∧ t.digest = ⟨0, 0, 0, 0, 0, 0, 0, 0⟩ ∧ t.msgLen = 0 ∧ t.padLen = 0 ∧ status t = 0x00000000 ∧
    t.phase = .idle ∧ t.msgCap = s.msgCap ∧ sequencerTurn t = .next t ∧
    (nextTurn s = .reset → t.mem = s.mem ∧ ∀ x, msgBufByte t x = msgBufByte s x) ∧
    (nextTurn s = .powerUp → t.bufDraw = s.draws + 1 ∧ (∀ x, msgBufByte t x = Config.powerUpByte (s.draws + 1) x) ∧
      (Inv s → t.bufDraw ≠ s.bufDraw))

/-- 10_state.md R22, R23: the words of the two ROMs, IV[0..7] and K[0..63], row by row of the rules' tables. -/
def Obligations.RomTables : Prop :=
  wordsList iv = [0x6a09e667, 0xbb67ae85, 0x3c6ef372, 0xa54ff53a, 0x510e527f, 0x9b05688c, 0x1f83d9ab, 0x5be0cd19] ∧
  [k 0, k 1, k 2, k 3, k 4, k 5, k 6, k 7] =
    [0x428a2f98, 0x71374491, 0xb5c0fbcf, 0xe9b5dba5, 0x3956c25b, 0x59f111f1, 0x923f82a4, 0xab1c5ed5] ∧
  [k 8, k 9, k 10, k 11, k 12, k 13, k 14, k 15] =
    [0xd807aa98, 0x12835b01, 0x243185be, 0x550c7dc3, 0x72be5d74, 0x80deb1fe, 0x9bdc06a7, 0xc19bf174] ∧
  [k 16, k 17, k 18, k 19, k 20, k 21, k 22, k 23] =
    [0xe49b69c1, 0xefbe4786, 0x0fc19dc6, 0x240ca1cc, 0x2de92c6f, 0x4a7484aa, 0x5cb0a9dc, 0x76f988da] ∧
  [k 24, k 25, k 26, k 27, k 28, k 29, k 30, k 31] =
    [0x983e5152, 0xa831c66d, 0xb00327c8, 0xbf597fc7, 0xc6e00bf3, 0xd5a79147, 0x06ca6351, 0x14292967] ∧
  [k 32, k 33, k 34, k 35, k 36, k 37, k 38, k 39] =
    [0x27b70a85, 0x2e1b2138, 0x4d2c6dfc, 0x53380d13, 0x650a7354, 0x766a0abb, 0x81c2c92e, 0x92722c85] ∧
  [k 40, k 41, k 42, k 43, k 44, k 45, k 46, k 47] =
    [0xa2bfe8a1, 0xa81a664b, 0xc24b8b70, 0xc76c51a3, 0xd192e819, 0xd6990624, 0xf40e3585, 0x106aa070] ∧
  [k 48, k 49, k 50, k 51, k 52, k 53, k 54, k 55] =
    [0x19a4c116, 0x1e376c08, 0x2748774c, 0x34b0bcb5, 0x391c0cb3, 0x4ed8aa4a, 0x5b9cca4f, 0x682e6ff3] ∧
  [k 56, k 57, k 58, k 59, k 60, k 61, k 62, k 63] =
    [0x748f82ee, 0x78a5636f, 0x84c87814, 0x8cc70208, 0x90befffa, 0xa4506ceb, 0xbef9a3f7, 0xc67178f2]

/-- 10_state.md R38, reset values, at the state after power-up and reset, for every MSG_BUF_BYTES. -/
def Obligations.ResetValues : Prop :=
  ∀ cap : Word,
    let s := State.resetWith cap
    status s = 0x00000000 ∧ s.msgLen = 0x00000000 ∧ s.padLen = 0x00000000 ∧ s.msgCap = cap ∧ s.h = iv ∧
    (∀ i < 8, wordAt s.digest i = 0x00000000) ∧ (∀ c < 64, digestHexByte s.digest c = 0x30) ∧
    (∀ x, msgBufByte s x = Config.powerUpByte 0 x) ∧ s.phase = .idle ∧ State.reset = State.resetWith 4096

/-! ## The whole machine -/

/-- 10_state.md R21: who writes H. A step that changes H is the sequencer's while busy (the fold or Finalize), an INIT in
an Idle CORE, or a reset. -/
def Obligations.HashStateWriters : Prop :=
  ∀ s t : State, step s = .next t → t.h ≠ s.h →
    (nextTurn s = .core ∧ s.phase = .processing) ∨ (s.phase = .idle ∧ IssuesWord s (encode .init)) ∨ ResetNext s

/-- 10_state.md R29: who writes DIGEST. A step that changes DIGEST is Finalize, an INIT in an Idle CORE, or a reset. -/
def Obligations.DigestWriters : Prop :=
  ∀ s t : State, step s = .next t → t.digest ≠ s.digest →
    (nextTurn s = .core ∧ s.phase = .processing ∧ s.j = s.n) ∨ (s.phase = .idle ∧ IssuesWord s (encode .init)) ∨
    ResetNext s

/-- 10_state.md R31 and R34: who writes MSG_BUF, and that MSG_CAP never changes. A step that changes MSG_BUF's cells is a
host write in an Idle CORE or a power-up. -/
def Obligations.MsgBufWriters : Prop :=
  ∀ s t : State, step s = .next t → t.msgCap = s.msgCap ∧
    (t.mem ≠ s.mem → nextTurn s = .powerUp ∨
      (nextTurn s = .host ∧ s.phase = .idle ∧ ∃ off size data rest, s.program = .txn (.write off size data) :: rest ∧
        admission s.msgCap.toNat (.write off size data) = .admitted .msgBuf))

/-- The invariant holds after power-up and reset, for every MSG_BUF_BYTES in the range of 00_scope.md R9. -/
def Obligations.InvAfterReset : Prop :=
  ∀ cap : Word, cap.toNat ≤ Config.msgBufBytesMax → Inv (State.resetWith cap)

/-- Every step keeps the invariant: MSG_BUF's canonical form and bounds, H = IV while Idle (10_state.md R39), PAD_LEN legal
(R33), BUSY never with DONE (R35), the HASH in progress running on the message still held (20_memory.md R66) with H the
fold of its blocks so far (44_engine.md R191). -/
def Obligations.StepKeepsInv : Prop := ∀ s t : State, Inv s → step s = .next t → Inv t

/-- From every state that meets the invariant the machine makes a step: nothing the host writes stops it (00_scope.md R18,
60_exceptions.md R220). -/
def Obligations.StepNeverStops : Prop := ∀ s : State, Inv s → ∃ t, step s = .next t

/-- 44_engine.md R191, R192: a HASH accepted with H = IV, after exactly N block steps and one Finalize step, leaves DIGEST =
HashWords(m) and DIGEST_HEX = SHA256(m), H = IV and STATUS = DONE; it is busy until then. -/
def Obligations.HashComputesSha256 : Prop :=
  ∀ s : State, s.phase = .idle → s.h = iv → s.msgLen.toNat ≤ s.msgCap.toNat → s.msgCap.toNat ≤ Config.msgBufBytesMax →
    ∃ u t, exec .hash s = .next u ∧ sequencerRun (blockCount s.msgLen.toNat + 1) u = .next t ∧
      t.digest = hashWords (message s) ∧ (∀ c < 64, digestHexByte t.digest c = (sha256 (message s)).getD c 0) ∧
      t.h = iv ∧ status t = 0x00000002 ∧ t.padLen.toNat = paddedLength s.msgLen.toNat ∧ message t = message s ∧
      ∀ count ≤ blockCount s.msgLen.toNat, ∃ x, sequencerRun count u = .next x ∧ x.phase = .processing ∧ x.j = count

/-- 44_engine.md R192: two HASHes of the same message give the same DIGEST, on one CORE or on two, and the first leaves the
CORE ready for the second. -/
def Obligations.SameMessageSameDigest : Prop :=
  ∀ s s' u u' t t' : State, s.phase = .idle → s.h = iv → s.msgLen.toNat ≤ s.msgCap.toNat →
    s'.phase = .idle → s'.h = iv → s'.msgLen.toNat ≤ s'.msgCap.toNat → message s = message s' →
    exec .hash s = .next u → sequencerRun (blockCount s.msgLen.toNat + 1) u = .next t →
    exec .hash s' = .next u' → sequencerRun (blockCount s'.msgLen.toNat + 1) u' = .next t' →
    t.digest = t'.digest ∧ t.phase = .idle ∧ t.h = iv ∧ message t = message s

/-- 20_memory.md R66, 44_engine.md R181, 70_reset_and_hazards.md R265: whatever the host does while a HASH is in progress, a
step that is no reset keeps the digest the HASH will deliver, and leaves the CORE either busy with the old DIGEST, or
Idle with that digest in DIGEST, H = IV and DONE = 1. -/
def Obligations.BusyStepKeepsPromise : Prop :=
  ∀ s t : State, Inv s → s.phase = .processing → ¬ ResetNext s → step s = .next t →
    (t.phase = .processing ∧ promisedDigest t = promisedDigest s ∧ t.digest = s.digest) ∨
    (t.phase = .idle ∧ t.digest = promisedDigest s ∧ t.h = iv ∧ t.done = true)

/-- 70_reset_and_hazards.md R262: a HASH in progress ends. With no reset among the turns to come, within as many steps as
there are turns and block steps left and one more, the CORE is Idle with DONE = 1 and the digest its HASH promised.
Fairness is the model's: the list of turns is finite (log 8). -/
def Obligations.HashTerminates : Prop :=
  ∀ s : State, Inv s → s.phase = .processing → noResetAhead s = true →
    ∃ count t, count ≤ s.turns.length + (s.n - s.j) + 1 ∧ Host.Core.run Sys2Proof.core count s = .next t ∧
      t.phase = .idle ∧ t.done = true ∧ t.digest = promisedDigest s

/-! ## Host programs and several instances -/

/-- 30_encoding.md R88: `wait` reads STATUS and repeats while bit 0 of the value is 1. -/
def Obligations.WaitPollsStatus : Prop :=
  ∀ (s : State) (rest : List HostOp), s.program = .wait :: rest →
    hostTurn s = .next { s with responses := ⟨.okay, status s⟩ :: s.responses,
                                program := if s.phase = .processing then .wait :: rest else rest }

/-- 30_encoding.md R88: the expansion of `msg "bytes"`, run in an Idle CORE, leaves the bytes in MSG_BUF and their number in
MSG_LEN, for every byte string that fits; no register but MSG_LEN changes. The turns to come are any list of turns of the
host and of the sequencer, and some number of steps, at most those turns and the operations, suffices; that the host moves
once the list is used up is the model's choice (log 8). -/
def Obligations.MsgExpansionLoadsMessage : Prop :=
  ∀ (bytes : List Byte) (s : State) (rest : List HostOp), s.phase = .idle → noResetAhead s = true →
    s.msgCap.toNat ≤ Config.msgBufBytesMax → bytes.length ≤ s.msgCap.toNat →
    s.program = expandPseudo (.msg bytes) ++ rest →
    ∃ count t, count ≤ s.turns.length + (expandPseudo (.msg bytes)).length ∧
      Host.Core.run Sys2Proof.core count s = .next t ∧ message t = bytes ∧
      t = { s with msgLen := BitVec.ofNat 32 bytes.length, mem := t.mem, program := rest, responses := t.responses,
                   turns := s.turns.drop count } ∧
      ∀ x, bytes.length ≤ x → msgBufByte t x = msgBufByte s x

/-- 60_exceptions.md R235, 10_state.md R42, 20_memory.md R51: a step of one instance changes no other; the CORE at `base`
decodes the offset of an address in its window; an access to an address in the window of instance `i`, and in that of none
before it (windows are presumed not to overlap, log 15), is `transact` at that offset on that instance and leaves every
other as it was; an address in no window reaches no CORE. -/
def Obligations.InstancesShareNothing : Prop :=
  (∀ (i : Nat) (cs ds : List CoreInstance), platformStep i cs = .next ds →
    ds.length = cs.length ∧ ∀ x, x ≠ i → ds[x]? = cs[x]?) ∧
  (∀ base : Nat, (∀ off : Off, offsetIn base (busAddress base off) = some off) ∧
    (∀ addr, addr < base ∨ base + 0xFFFF < addr → offsetIn base addr = none)) ∧
  (∀ (addr : Nat) (toTxn : Off → Txn) (cs : List CoreInstance) (i : Nat) (c : CoreInstance) (off : Off),
    cs[i]? = some c → offsetIn c.base addr = some off →
    (∀ x < i, ∀ d, cs[x]? = some d → offsetIn d.base addr = none) →
    ∃ t, transact (toTxn off) c.core = .next t ∧
      platformAccess addr toTxn cs = .next (cs.set i { c with core := t }) ∧
      ∀ x, x ≠ i → (cs.set i { c with core := t })[x]? = cs[x]?) ∧
  (∀ (addr : Nat) (toTxn : Off → Txn) (cs : List CoreInstance), (∀ c ∈ cs, offsetIn c.base addr = none) →
    platformAccess addr toTxn cs = .next cs)
end

