-- ==== Sys2Proof/Laws/Lanes.lean ====
section
/-!
SUPPORT. The laws of the byte lanes and of the byte sequences read through them.
-/

namespace Sys2Proof.Machine

/-- The bits of a data word assembled from lanes. -/
theorem getLsbD_lanesOf_cons (b : Byte) (bs : List Byte) (i : Nat) :
    (lanesOf (b :: bs)).getLsbD i =
      if i < 8 then b.getLsbD i else decide (i < 32) && (lanesOf bs).getLsbD (i - 8) := by
  simp only [lanesOf, BitVec.getLsbD_or, BitVec.getLsbD_shiftLeft, BitVec.getLsbD_setWidth]
  by_cases h : i < 8
  · have h32 : i < 32 := by omega
    simp [h, h32]
  · have hb : b.getLsbD i = false := BitVec.getLsbD_of_ge _ _ (by omega)
    simp [h, hb]

/-- A data word assembled from lanes has byte i of the list in lane i, and 0 above the list. -/
theorem laneByte_lanesOf (bs : List Byte) (i : Nat) (hi : i < 4) :
    laneByte (lanesOf bs) i = bs.getD i 0 := by
  induction bs generalizing i with
  | nil => simp [lanesOf, laneByte]
  | cons b bs ih =>
    apply BitVec.eq_of_getLsbD_eq
    intro k hk
    rw [laneByte, BitVec.getLsbD_extractLsb', getLsbD_lanesOf_cons]
    cases i with
    | zero => simp [hk]
    | succ i =>
      have := congrArg (fun x => x.getLsbD k) (ih i (by omega))
      simp only [laneByte, BitVec.getLsbD_extractLsb', hk, decide_true, Bool.true_and] at this
      have h1 : 8 * (i + 1) + k - 8 = 8 * i + k := by omega
      have h2 : ¬ 8 * (i + 1) + k < 8 := by omega
      have h3 : 8 * (i + 1) + k < 32 := by omega
      rw [List.getD_cons_succ, if_neg h2, h1, this]
      simp [hk, h3]

/-- The buffer's bytes: as many as asked for. -/
@[simp] theorem msgBufBytes_length (s : State) (i count : Nat) : (msgBufBytes s i count).length = count := by
  induction count generalizing i with
  | zero => rfl
  | succ count ih => simp [msgBufBytes, ih]

/-- Byte `x` of the buffer's bytes from `i` on is MSG_BUF[i + x]. -/
theorem msgBufBytes_getD (s : State) (i count x : Nat) (hx : x < count) :
    (msgBufBytes s i count).getD x 0 = msgBufByte s (i + x) := by
  induction count generalizing i x with
  | zero => omega
  | succ count ih =>
    cases x with
    | zero => rfl
    | succ x =>
      rw [msgBufBytes, List.getD_cons_succ, ih _ _ (by omega)]
      congr 1; omega

/-- The message has MSG_LEN bytes. -/
@[simp] theorem message_length (s : State) : (message s).length = s.msgLen.toNat := msgBufBytes_length _ _ _

/-- The bytes of two states agree where MSG_BUF holds the same cells of the same power-up. -/
theorem msgBufBytes_congr {s s' : State} (hm : s'.mem = s.mem) (hb : s'.bufDraw = s.bufDraw) (i count : Nat) :
    msgBufBytes s' i count = msgBufBytes s i count := by
  induction count generalizing i with
  | zero => rfl
  | succ count ih => simp only [msgBufBytes, ih, msgBufByte, hm, hb]

/-- The message of two states agrees where MSG_LEN and MSG_BUF do. -/
theorem message_congr {s s' : State} (hm : s'.mem = s.mem) (hb : s'.bufDraw = s.bufDraw)
    (hl : s'.msgLen = s.msgLen) : message s' = message s := by
  rw [message, message, hl, msgBufBytes_congr hm hb]

/-- The view's bytes: as many as asked for. -/
@[simp] theorem digestHexBytes_length (d : Words8) (c count : Nat) : (digestHexBytes d c count).length = count := by
  induction count generalizing c with
  | zero => rfl
  | succ count ih => simp [digestHexBytes, ih]

/-- Byte `x` of the view's bytes from `c` on is DIGEST_HEX[c + x]. -/
theorem digestHexBytes_getD (d : Words8) (c count x : Nat) (hx : x < count) :
    (digestHexBytes d c count).getD x 0 = digestHexByte d (c + x) := by
  induction count generalizing c x with
  | zero => omega
  | succ count ih =>
    cases x with
    | zero => rfl
    | succ x =>
      rw [digestHexBytes, List.getD_cons_succ, ih _ _ (by omega)]
      congr 1; omega

end Sys2Proof.Machine
end

