-- ==== Sys2Proof/Laws/Preprocessor.lean ====
section
/-!
SUPPORT. The laws of the padded length and of the padded buffer's length (41_preprocessor.md R131, R136, R142).
-/

namespace Sys2Proof.Machine

/-- The padded length leaves room for the message, the marker and the length field. -/
theorem le_paddedLength (len : Nat) : len + 9 ≤ paddedLength len := by
  simp only [paddedLength]; omega

/-- The block count is the padded length in blocks. -/
theorem paddedLength_eq (len : Nat) : paddedLength len = 64 * blockCount len := by
  simp only [blockCount, paddedLength]; omega

/-- The block count in closed form. -/
theorem blockCount_eq (len : Nat) : blockCount len = (len + 8) / 64 + 1 := by
  simp only [blockCount, paddedLength]; omega

/-- A longer message has no shorter padded length. -/
theorem paddedLength_mono {a b : Nat} (h : a ≤ b) : paddedLength a ≤ paddedLength b := by
  simp only [paddedLength]; omega

/-- The length field has eight bytes. -/
@[simp] theorem be64bytes_length (v : BitVec 64) : (be64bytes v).length = 8 := rfl

/-- The padded buffer has the padded length. -/
theorem pad_length (msg : List Byte) : (pad msg).length = paddedLength msg.length := by
  have := le_paddedLength msg.length
  simp only [pad, List.length_append, List.length_cons, List.length_replicate, be64bytes_length]
  omega

end Sys2Proof.Machine
end

