-- ==== Sys2Proof/Laws/State.lean ====
section
/-!
SUPPORT. What each shared update of the state does to each field, one lemma per field.
-/

namespace Sys2Proof.Machine

/-! Fields after raising an error (60_exceptions.md R221): ERR and DONE alone. -/

@[simp] theorem raiseError_h (code : ErrCode) (s : State) : (raiseError code s).h = s.h := rfl
@[simp] theorem raiseError_digest (code : ErrCode) (s : State) : (raiseError code s).digest = s.digest := rfl
@[simp] theorem raiseError_msgLen (code : ErrCode) (s : State) : (raiseError code s).msgLen = s.msgLen := rfl
@[simp] theorem raiseError_padLen (code : ErrCode) (s : State) : (raiseError code s).padLen = s.padLen := rfl
@[simp] theorem raiseError_msgCap (code : ErrCode) (s : State) : (raiseError code s).msgCap = s.msgCap := rfl
@[simp] theorem raiseError_done (code : ErrCode) (s : State) : (raiseError code s).done = false := rfl
@[simp] theorem raiseError_err (code : ErrCode) (s : State) : (raiseError code s).err = code := rfl
@[simp] theorem raiseError_mem (code : ErrCode) (s : State) : (raiseError code s).mem = s.mem := rfl
@[simp] theorem raiseError_phase (code : ErrCode) (s : State) : (raiseError code s).phase = s.phase := rfl
@[simp] theorem raiseError_lAcc (code : ErrCode) (s : State) : (raiseError code s).lAcc = s.lAcc := rfl
@[simp] theorem raiseError_p (code : ErrCode) (s : State) : (raiseError code s).p = s.p := rfl
@[simp] theorem raiseError_n (code : ErrCode) (s : State) : (raiseError code s).n = s.n := rfl
@[simp] theorem raiseError_j (code : ErrCode) (s : State) : (raiseError code s).j = s.j := rfl
@[simp] theorem raiseError_w (code : ErrCode) (s : State) : (raiseError code s).w = s.w := rfl
@[simp] theorem raiseError_v (code : ErrCode) (s : State) : (raiseError code s).v = s.v := rfl
@[simp] theorem raiseError_t (code : ErrCode) (s : State) : (raiseError code s).t = s.t := rfl
@[simp] theorem raiseError_program (code : ErrCode) (s : State) : (raiseError code s).program = s.program := rfl
@[simp] theorem raiseError_turns (code : ErrCode) (s : State) : (raiseError code s).turns = s.turns := rfl
@[simp] theorem raiseError_responses (code : ErrCode) (s : State) : (raiseError code s).responses = s.responses := rfl
@[simp] theorem raiseError_draws (code : ErrCode) (s : State) : (raiseError code s).draws = s.draws := rfl
@[simp] theorem raiseError_bufDraw (code : ErrCode) (s : State) : (raiseError code s).bufDraw = s.bufDraw := rfl

/-! Fields after clearing the error indication (60_exceptions.md R226): ERR and DONE alone. -/

@[simp] theorem clearError_h (s : State) : (clearError s).h = s.h := rfl
@[simp] theorem clearError_digest (s : State) : (clearError s).digest = s.digest := rfl
@[simp] theorem clearError_msgLen (s : State) : (clearError s).msgLen = s.msgLen := rfl
@[simp] theorem clearError_padLen (s : State) : (clearError s).padLen = s.padLen := rfl
@[simp] theorem clearError_msgCap (s : State) : (clearError s).msgCap = s.msgCap := rfl
@[simp] theorem clearError_done (s : State) : (clearError s).done = false := rfl
@[simp] theorem clearError_err (s : State) : (clearError s).err = .none := rfl
@[simp] theorem clearError_mem (s : State) : (clearError s).mem = s.mem := rfl
@[simp] theorem clearError_phase (s : State) : (clearError s).phase = s.phase := rfl
@[simp] theorem clearError_lAcc (s : State) : (clearError s).lAcc = s.lAcc := rfl
@[simp] theorem clearError_p (s : State) : (clearError s).p = s.p := rfl
@[simp] theorem clearError_n (s : State) : (clearError s).n = s.n := rfl
@[simp] theorem clearError_j (s : State) : (clearError s).j = s.j := rfl
@[simp] theorem clearError_w (s : State) : (clearError s).w = s.w := rfl
@[simp] theorem clearError_v (s : State) : (clearError s).v = s.v := rfl
@[simp] theorem clearError_t (s : State) : (clearError s).t = s.t := rfl
@[simp] theorem clearError_program (s : State) : (clearError s).program = s.program := rfl
@[simp] theorem clearError_turns (s : State) : (clearError s).turns = s.turns := rfl
@[simp] theorem clearError_responses (s : State) : (clearError s).responses = s.responses := rfl
@[simp] theorem clearError_draws (s : State) : (clearError s).draws = s.draws := rfl
@[simp] theorem clearError_bufDraw (s : State) : (clearError s).bufDraw = s.bufDraw := rfl

/-! Fields after answering a transaction: the answers received alone. -/

@[simp] theorem respond_h (resp : Resp) (data : Word) (s : State) : (respond resp data s).h = s.h := rfl
@[simp] theorem respond_digest (resp : Resp) (data : Word) (s : State) : (respond resp data s).digest = s.digest := rfl
@[simp] theorem respond_msgLen (resp : Resp) (data : Word) (s : State) : (respond resp data s).msgLen = s.msgLen := rfl
@[simp] theorem respond_padLen (resp : Resp) (data : Word) (s : State) : (respond resp data s).padLen = s.padLen := rfl
@[simp] theorem respond_msgCap (resp : Resp) (data : Word) (s : State) : (respond resp data s).msgCap = s.msgCap := rfl
@[simp] theorem respond_done (resp : Resp) (data : Word) (s : State) : (respond resp data s).done = s.done := rfl
@[simp] theorem respond_err (resp : Resp) (data : Word) (s : State) : (respond resp data s).err = s.err := rfl
@[simp] theorem respond_mem (resp : Resp) (data : Word) (s : State) : (respond resp data s).mem = s.mem := rfl
@[simp] theorem respond_phase (resp : Resp) (data : Word) (s : State) : (respond resp data s).phase = s.phase := rfl
@[simp] theorem respond_lAcc (resp : Resp) (data : Word) (s : State) : (respond resp data s).lAcc = s.lAcc := rfl
@[simp] theorem respond_p (resp : Resp) (data : Word) (s : State) : (respond resp data s).p = s.p := rfl
@[simp] theorem respond_n (resp : Resp) (data : Word) (s : State) : (respond resp data s).n = s.n := rfl
@[simp] theorem respond_j (resp : Resp) (data : Word) (s : State) : (respond resp data s).j = s.j := rfl
@[simp] theorem respond_w (resp : Resp) (data : Word) (s : State) : (respond resp data s).w = s.w := rfl
@[simp] theorem respond_v (resp : Resp) (data : Word) (s : State) : (respond resp data s).v = s.v := rfl
@[simp] theorem respond_t (resp : Resp) (data : Word) (s : State) : (respond resp data s).t = s.t := rfl
@[simp] theorem respond_program (resp : Resp) (data : Word) (s : State) : (respond resp data s).program = s.program := rfl
@[simp] theorem respond_turns (resp : Resp) (data : Word) (s : State) : (respond resp data s).turns = s.turns := rfl
@[simp] theorem respond_responses (resp : Resp) (data : Word) (s : State) : (respond resp data s).responses = ⟨resp, data⟩ :: s.responses := rfl
@[simp] theorem respond_draws (resp : Resp) (data : Word) (s : State) : (respond resp data s).draws = s.draws := rfl
@[simp] theorem respond_bufDraw (resp : Resp) (data : Word) (s : State) : (respond resp data s).bufDraw = s.bufDraw := rfl

/-! Fields after taking a turn: the turns to come alone. -/

@[simp] theorem popTurn_h (s : State) : (popTurn s).h = s.h := rfl
@[simp] theorem popTurn_digest (s : State) : (popTurn s).digest = s.digest := rfl
@[simp] theorem popTurn_msgLen (s : State) : (popTurn s).msgLen = s.msgLen := rfl
@[simp] theorem popTurn_padLen (s : State) : (popTurn s).padLen = s.padLen := rfl
@[simp] theorem popTurn_msgCap (s : State) : (popTurn s).msgCap = s.msgCap := rfl
@[simp] theorem popTurn_done (s : State) : (popTurn s).done = s.done := rfl
@[simp] theorem popTurn_err (s : State) : (popTurn s).err = s.err := rfl
@[simp] theorem popTurn_mem (s : State) : (popTurn s).mem = s.mem := rfl
@[simp] theorem popTurn_phase (s : State) : (popTurn s).phase = s.phase := rfl
@[simp] theorem popTurn_lAcc (s : State) : (popTurn s).lAcc = s.lAcc := rfl
@[simp] theorem popTurn_p (s : State) : (popTurn s).p = s.p := rfl
@[simp] theorem popTurn_n (s : State) : (popTurn s).n = s.n := rfl
@[simp] theorem popTurn_j (s : State) : (popTurn s).j = s.j := rfl
@[simp] theorem popTurn_w (s : State) : (popTurn s).w = s.w := rfl
@[simp] theorem popTurn_v (s : State) : (popTurn s).v = s.v := rfl
@[simp] theorem popTurn_t (s : State) : (popTurn s).t = s.t := rfl
@[simp] theorem popTurn_program (s : State) : (popTurn s).program = s.program := rfl
@[simp] theorem popTurn_turns (s : State) : (popTurn s).turns = s.turns.tail := rfl
@[simp] theorem popTurn_responses (s : State) : (popTurn s).responses = s.responses := rfl
@[simp] theorem popTurn_draws (s : State) : (popTurn s).draws = s.draws := rfl
@[simp] theorem popTurn_bufDraw (s : State) : (popTurn s).bufDraw = s.bufDraw := rfl

/-! Fields after taking the host's next operation: its program alone. -/

@[simp] theorem popOp_h (s : State) : (popOp s).h = s.h := rfl
@[simp] theorem popOp_digest (s : State) : (popOp s).digest = s.digest := rfl
@[simp] theorem popOp_msgLen (s : State) : (popOp s).msgLen = s.msgLen := rfl
@[simp] theorem popOp_padLen (s : State) : (popOp s).padLen = s.padLen := rfl
@[simp] theorem popOp_msgCap (s : State) : (popOp s).msgCap = s.msgCap := rfl
@[simp] theorem popOp_done (s : State) : (popOp s).done = s.done := rfl
@[simp] theorem popOp_err (s : State) : (popOp s).err = s.err := rfl
@[simp] theorem popOp_mem (s : State) : (popOp s).mem = s.mem := rfl
@[simp] theorem popOp_phase (s : State) : (popOp s).phase = s.phase := rfl
@[simp] theorem popOp_lAcc (s : State) : (popOp s).lAcc = s.lAcc := rfl
@[simp] theorem popOp_p (s : State) : (popOp s).p = s.p := rfl
@[simp] theorem popOp_n (s : State) : (popOp s).n = s.n := rfl
@[simp] theorem popOp_j (s : State) : (popOp s).j = s.j := rfl
@[simp] theorem popOp_w (s : State) : (popOp s).w = s.w := rfl
@[simp] theorem popOp_v (s : State) : (popOp s).v = s.v := rfl
@[simp] theorem popOp_t (s : State) : (popOp s).t = s.t := rfl
@[simp] theorem popOp_program (s : State) : (popOp s).program = s.program.tail := rfl
@[simp] theorem popOp_turns (s : State) : (popOp s).turns = s.turns := rfl
@[simp] theorem popOp_responses (s : State) : (popOp s).responses = s.responses := rfl
@[simp] theorem popOp_draws (s : State) : (popOp s).draws = s.draws := rfl
@[simp] theorem popOp_bufDraw (s : State) : (popOp s).bufDraw = s.bufDraw := rfl

end Sys2Proof.Machine
end

