-- ==== Sys2Proof/Laws/Engine.lean ====
section
/-!
SUPPORT. What the shared operations of the Digest Engine can do, said once for each.
-/

namespace Sys2Proof.Machine

/-- A command in an Idle CORE has its own effect. -/
theorem unlessBusy_idle {effect : State → State} {s : State} (h : s.phase = .idle) :
    unlessBusy effect s = .next (effect s) := by rw [unlessBusy, h]

/-- A command while busy is dropped. -/
theorem unlessBusy_busy {effect : State → State} {s : State} (h : s.phase = .processing) :
    unlessBusy effect s = .next (commandWhileBusy s) := by rw [unlessBusy, h]

/-- Every command answers a next state. -/
theorem exec_next (i : Instr) (s : State) : ∃ t, exec i s = .next t := by
  cases i <;> (simp only [exec, execNop, execHash, execInit, unlessBusy]; split <;> exact ⟨_, rfl⟩)

/-- Everything a command can do: it is dropped while busy; in an Idle CORE it has its own effect. -/
theorem exec_cases {i : Instr} {s t : State} (h : exec i s = .next t) :
    (s.phase = .processing ∧ t = commandWhileBusy s) ∨
    (s.phase = .idle ∧ i = .nop ∧ t = s) ∨
    (s.phase = .idle ∧ i = .init ∧ t = initIdle s) ∨
    (s.phase = .idle ∧ i = .hash ∧ s.msgCap.toNat < s.msgLen.toNat ∧ t = raiseError .lenTooLarge s) ∨
    (s.phase = .idle ∧ i = .hash ∧ s.msgLen.toNat ≤ s.msgCap.toNat ∧ t = acceptHash s) := by
  cases hp : s.phase with
  | processing =>
    cases i <;> simp only [exec, execNop, execHash, execInit, unlessBusy_busy hp, Host.Outcome.next.injEq] at h <;>
      exact .inl ⟨rfl, h.symm⟩
  | idle =>
    cases i with
    | nop =>
      simp only [exec, execNop, unlessBusy_idle hp, Host.Outcome.next.injEq] at h
      exact .inr (.inl ⟨rfl, rfl, h.symm⟩)
    | init =>
      simp only [exec, execInit, unlessBusy_idle hp, Host.Outcome.next.injEq] at h
      exact .inr (.inr (.inl ⟨rfl, rfl, h.symm⟩))
    | hash =>
      simp only [exec, execHash, unlessBusy_idle hp, Host.Outcome.next.injEq, hashIdle] at h
      split at h
      · next hlt => exact .inr (.inr (.inr (.inl ⟨rfl, rfl, hlt, h.symm⟩)))
      · next hle => exact .inr (.inr (.inr (.inr ⟨rfl, rfl, Nat.le_of_not_lt hle, h.symm⟩)))

/-- The round loop changes a..h and t alone. -/
theorem roundLoop_shape (count : Nat) (s : State) : ∃ v t, roundLoop count s = { s with v := v, t := t } := by
  induction count generalizing s with
  | zero => exact ⟨s.v, s.t, rfl⟩
  | succ count ih =>
    obtain ⟨v, t, h⟩ := ih (roundStep s)
    exact ⟨v, t, by rw [roundLoop, h]; rfl⟩

/-- The block step changes H, W, a..h, t and j alone. -/
theorem blockStep_shape (s : State) : ∃ h v t, blockStep s =
    { s with h := h, w := schedule (chunk s.p s.j), v := v, t := t, j := s.j + 1 } := by
  obtain ⟨v, t, h⟩ := roundLoop_shape 64 (startBlock { s with w := schedule (chunk s.p s.j) })
  refine ⟨foldWorking s.h v, v, t, ?_⟩
  unfold blockStep compressBlock
  rw [h]
  simp only [endBlock, startBlock]

/-- Everything a turn of the core sequencer can do. -/
theorem sequencerTurn_cases {s t : State} (h : sequencerTurn s = .next t) :
    (s.phase = .idle ∧ t = s) ∨ (s.phase = .processing ∧ s.j < s.n ∧ t = blockStep s) ∨
    (s.phase = .processing ∧ s.j = s.n ∧ t = finalize s) := by
  unfold sequencerTurn at h
  split at h
  · next hp => exact .inl ⟨hp, (Host.Outcome.next.inj h).symm⟩
  · next hp =>
    split at h
    · next hj => exact .inr (.inl ⟨hp, hj, (Host.Outcome.next.inj h).symm⟩)
    · split at h
      · next hj => exact .inr (.inr ⟨hp, hj, (Host.Outcome.next.inj h).symm⟩)
      · cases h

/-- The padded buffer a HASH accepts has the padded length of MSG_LEN. -/
theorem pad_message_length (s : State) : (pad (message s)).length = paddedLength s.msgLen.toNat := by
  rw [pad_length, message_length]

end Sys2Proof.Machine
end

