-- ==== Sys2Proof/Laws/Memory.lean ====
section
/-!
SUPPORT. The laws of the message buffer's cells: a read after a write, and the canonical form.
-/

namespace Sys2Proof.Machine

/-- A read after a write to the same address gives the byte written. -/
theorem Memory.read_write_same (m : List Host.Cell) (a : Nat) (x : Byte) :
    Memory.read (Memory.write m a x) a = some x := by
  induction m with
  | nil => simp [Memory.write, Memory.read]
  | cons c m ih =>
    obtain ⟨b, y⟩ := c
    simp only [Memory.write]
    split
    · simp [Memory.read]
    · split
      · simp [Memory.read]
      · next hne => simp [Memory.read, ih, Ne.symm hne]

/-- A write leaves every other address as it was. -/
theorem Memory.read_write_other (m : List Host.Cell) {a a' : Nat} (x : Byte) (h : a' ≠ a) :
    Memory.read (Memory.write m a x) a' = Memory.read m a' := by
  induction m with
  | nil => simp [Memory.write, Memory.read, Ne.symm h]
  | cons c m ih =>
    obtain ⟨b, y⟩ := c
    simp only [Memory.write]
    split
    · simp [Memory.read, Ne.symm h]
    · split
      · next hab => subst hab; simp [Memory.read, Ne.symm h]
      · simp only [Memory.read, ih]

/-- A read after a write, at any address. -/
theorem Memory.read_write (m : List Host.Cell) (a a' : Nat) (x : Byte) :
    Memory.read (Memory.write m a x) a' = if a' = a then some x else Memory.read m a' := by
  split
  · next h => rw [h, Memory.read_write_same]
  · next h => exact Memory.read_write_other m x h

/-- The addresses of the cells after a write are those before it and the one written. -/
theorem Memory.mem_write {m : List Host.Cell} {a : Nat} {x : Byte} {c : Host.Cell}
    (h : c ∈ Memory.write m a x) : c ∈ m ∨ c = (a, x) := by
  induction m with
  | nil => simpa [Memory.write] using h
  | cons d m ih =>
    obtain ⟨b, y⟩ := d
    simp only [Memory.write] at h
    split at h
    · simp only [List.mem_cons] at h ⊢; tauto
    · split at h
      · simp only [List.mem_cons] at h ⊢; tauto
      · simp only [List.mem_cons] at h ⊢
        rcases h with h | h
        · tauto
        · have := ih h; tauto

/-- Every write keeps the canonical form. -/
theorem Memory.write_wf {m : List Host.Cell} (a : Nat) (x : Byte) (h : Memory.wf m) :
    Memory.wf (Memory.write m a x) := by
  induction m with
  | nil => simp [Memory.write, Memory.wf]
  | cons d m ih =>
    obtain ⟨b, y⟩ := d
    simp only [Memory.wf, List.map_cons, List.pairwise_cons] at h
    obtain ⟨hb, hm⟩ := h
    simp only [Memory.write]
    split
    · next hab =>
      simp only [Memory.wf, List.map_cons, List.pairwise_cons, List.mem_cons]
      refine ⟨?_, hb, hm⟩
      rintro c (rfl | hc)
      · exact hab
      · exact lt_trans hab (hb c hc)
    · split
      · next hab => subst hab; simpa only [Memory.wf, List.map_cons, List.pairwise_cons] using ⟨hb, hm⟩
      · next h1 h2 =>
        simp only [Memory.wf, List.map_cons, List.pairwise_cons]
        refine ⟨?_, ih hm⟩
        intro c hc
        obtain ⟨d, hd, rfl⟩ := List.mem_map.mp hc
        rcases Memory.mem_write hd with hd | rfl
        · exact hb _ (List.mem_map.mpr ⟨d, hd, rfl⟩)
        · show b < a; omega

/-- The memory after power-up and reset has the canonical form. -/
theorem resetWith_mem_wf (cap : Word) : Memory.wf (State.resetWith cap).mem := List.Pairwise.nil

/-- Writing lanes keeps the canonical form. -/
theorem writeLanes_wf {m : List Host.Cell} (a : Nat) (data : Word) (count : Nat) (h : Memory.wf m) :
    Memory.wf (writeLanes m a data count) := by
  induction count with
  | zero => exact h
  | succ count ih => exact Memory.write_wf _ _ ih

/-- The cells after writing lanes are those before it and cells of the addresses written. -/
theorem mem_writeLanes {m : List Host.Cell} {a : Nat} {data : Word} {count : Nat} {c : Host.Cell}
    (h : c ∈ writeLanes m a data count) : c ∈ m ∨ (a ≤ c.1 ∧ c.1 < a + count) := by
  induction count with
  | zero => exact .inl h
  | succ count ih =>
    rcases Memory.mem_write h with h | rfl
    · rcases ih h with h | h
      · exact .inl h
      · right; omega
    · right; simp

/-- A read after writing lanes: the lane at the addresses written, the byte before elsewhere. -/
theorem read_writeLanes (m : List Host.Cell) (a a' : Nat) (data : Word) (count : Nat) :
    Memory.read (writeLanes m a data count) a' =
      if a ≤ a' ∧ a' < a + count then some (laneByte data (a' - a)) else Memory.read m a' := by
  induction count with
  | zero => simp only [writeLanes, Nat.add_zero]; split <;> [omega; rfl]
  | succ count ih =>
    rw [writeLanes, Memory.read_write, ih]
    by_cases h : a' = a + count
    · subst h; simp
    · rw [if_neg h]
      by_cases h2 : a ≤ a' ∧ a' < a + count
      · rw [if_pos h2, if_pos (by omega)]
      · rw [if_neg h2, if_neg (by omega)]

end Sys2Proof.Machine
end

