-- ==== Sys2Proof/Laws/Bus.lean ====
section
/-!
SUPPORT. What a bus transaction and a turn can do, said once for each.
-/

namespace Sys2Proof.Machine

/-- `mapNext` answers a next state where its argument does, and there alone. -/
theorem mapNext_eq_next {σ τ : Type} {f : σ → τ} {o : Host.Outcome σ Fault Refusal} {t : τ} :
    mapNext f o = .next t ↔ ∃ s, o = .next s ∧ t = f s := by
  cases o with
  | next s => simp [mapNext, eq_comm]
  | fault r => simp [mapNext]
  | refused r => simp [mapNext]

/-- `mapNext` on a next state. -/
@[simp] theorem mapNext_next {σ τ : Type} (f : σ → τ) (s : σ) :
    mapNext f (.next s : Host.Outcome σ Fault Refusal) = .next (f s) := rfl

/-- A read changes the count of draws alone. -/
theorem countDraw_eq (r : Region) (s : State) : countDraw r s = { s with draws := (countDraw r s).draws } := by
  unfold countDraw; split <;> rfl

/-- A read never lowers the count of draws. -/
theorem le_countDraw (r : Region) (s : State) : s.draws ≤ (countDraw r s).draws := by
  unfold countDraw; split <;> simp

/-- Everything a word written to CMD can do. -/
theorem writeCmd_cases {w : Word} {s t : State} (h : writeCmd w s = .next t) :
    (s.phase = .processing ∧ t = commandWhileBusy s) ∨
    (s.phase = .idle ∧ (∃ why, decode w = .illegal why) ∧ t = illegalCommand s) ∨
    (s.phase = .idle ∧ ∃ i, decode w = .cmd i ∧ exec i s = .next t) := by
  unfold writeCmd at h
  split at h
  · next hp => exact .inl ⟨hp, (Host.Outcome.next.inj h).symm⟩
  · next hp =>
    split at h
    · next i hi => exact .inr (.inr ⟨hp, i, hi, h⟩)
    · next why hi => exact .inr (.inl ⟨hp, ⟨why, hi⟩, (Host.Outcome.next.inj h).symm⟩)

/-- A word written to CMD while busy is dropped. -/
theorem writeCmd_busy (w : Word) {s : State} (h : s.phase = .processing) :
    writeCmd w s = .next (commandWhileBusy s) := by rw [writeCmd, h]

/-- A command word written to an Idle CORE is executed. -/
theorem writeCmd_command {w : Word} {i : Instr} {s : State} (h : s.phase = .idle) (hw : decode w = .cmd i) :
    writeCmd w s = exec i s := by rw [writeCmd, h]; simp only [hw]

/-- An illegal word written to an Idle CORE is refused. -/
theorem writeCmd_illegal {w : Word} {why : DecodeError} {s : State} (h : s.phase = .idle)
    (hw : decode w = .illegal why) : writeCmd w s = .next (illegalCommand s) := by
  rw [writeCmd, h]; simp only [hw]

/-- A write to MSG_LEN while busy is dropped. -/
theorem writeMsgLen_busy (data : Word) {s : State} (h : s.phase = .processing) :
    writeMsgLen data s = raiseError .writeWhileBusy s := by rw [writeMsgLen, h]

/-- A write to MSG_LEN in an Idle CORE. -/
theorem writeMsgLen_idle (data : Word) {s : State} (h : s.phase = .idle) :
    writeMsgLen data s = { s with msgLen := data } := by rw [writeMsgLen]; simp only [h]

/-- A write to MSG_BUF while busy is dropped. -/
theorem writeMsgBuf_busy (off : Nat) (size : BusSize) (data : Word) {s : State} (h : s.phase = .processing) :
    writeMsgBuf off size data s = raiseError .writeWhileBusy s := by rw [writeMsgBuf, h]

/-- A write to MSG_BUF in an Idle CORE. -/
theorem writeMsgBuf_idle (off : Nat) (size : BusSize) (data : Word) {s : State} (h : s.phase = .idle) :
    writeMsgBuf off size data s = { s with mem := writeLanes s.mem off data (sizeBytes size) } := by
  rw [writeMsgBuf]; simp only [h]

/-- A word written to CMD always answers a next state. -/
theorem writeCmd_next (w : Word) (s : State) : ∃ t, writeCmd w s = .next t := by
  unfold writeCmd
  split
  · exact ⟨_, rfl⟩
  · split
    · exact exec_next _ _
    · exact ⟨_, rfl⟩

/-- A write allowed to change nothing but what it addresses is to CMD, MSG_LEN or MSG_BUF. -/
theorem regionRow_mem {cap off : Nat} {r : MapRow} (h : regionRow cap off = some r) :
    r ∈ addressMap cap ∧ r.base ≤ off ∧ off < r.base + r.bytes := by
  refine ⟨List.mem_of_find?_eq_some h, ?_⟩
  simpa using List.find?_some h

/-- Every access size with its number of bytes. -/
theorem sizeBytes_cases (size : BusSize) :
    (size = .one ∧ sizeBytes size = 1) ∨ (size = .two ∧ sizeBytes size = 2) ∨ (size = .four ∧ sizeBytes size = 4) := by
  cases size <;> simp [sizeBytes]

/-- The rows of the address map by the offsets they cover (20_memory.md R56). -/
theorem regionRow_cases {cap off : Nat} {r : MapRow} (h : regionRow cap off = some r) :
    (off < 4 ∧ r = ⟨.cmd, 0x0000, 4, [.four], true⟩) ∨
    (4 ≤ off ∧ off < 8 ∧ r = ⟨.status, 0x0004, 4, [.four], false⟩) ∨
    (8 ≤ off ∧ off < 12 ∧ r = ⟨.msgLen, 0x0008, 4, [.four], true⟩) ∨
    (12 ≤ off ∧ off < 16 ∧ r = ⟨.padLen, 0x000C, 4, [.four], false⟩) ∨
    (16 ≤ off ∧ off < 20 ∧ r = ⟨.msgCap, 0x0010, 4, [.four], false⟩) ∨
    (64 ≤ off ∧ off < 96 ∧ r = ⟨.h, 0x0040, 32, [.four], false⟩) ∨
    (96 ≤ off ∧ off < 128 ∧ r = ⟨.digest, 0x0060, 32, [.four], false⟩) ∨
    (128 ≤ off ∧ off < 192 ∧ r = ⟨.digestHex, 0x0080, 64, [.one, .two, .four], false⟩) ∨
    (0x1000 ≤ off ∧ off < 0x1000 + cap ∧ r = ⟨.msgBuf, msgBufBase, cap, [.one, .two, .four], true⟩) := by
  obtain ⟨hm, h1, h2⟩ := regionRow_mem h
  simp only [addressMap, List.mem_cons, List.not_mem_nil, or_false] at hm
  rcases hm with rfl | rfl | rfl | rfl | rfl | rfl | rfl | rfl | rfl <;>
    simp [msgBufBase] at h1 h2 ⊢ <;> omega

/-- The offsets no row covers are reserved (20_memory.md R56). -/
theorem regionRow_none {cap off : Nat} (h : regionRow cap off = none) :
    ¬ off < 20 ∧ ¬ (64 ≤ off ∧ off < 192) ∧ ¬ (0x1000 ≤ off ∧ off < 0x1000 + cap) := by
  have h' := List.find?_eq_none.mp h
  simp only [addressMap, List.mem_cons, List.not_mem_nil, or_false, forall_eq_or_imp, forall_eq, msgBufBase] at h'
  simp only [decide_eq_true_eq] at h'
  omega

/-- A transaction that meets the five conditions of 20_memory.md R53 is admitted. -/
theorem admission_of_row {cap : Nat} {t : Txn} {row : MapRow} (h : regionRow cap (txnOff t).toNat = some row)
    (hs : txnSize t ∈ row.sizes) (ha : (txnOff t).toNat % sizeBytes (txnSize t) = 0)
    (he : (txnOff t).toNat + sizeBytes (txnSize t) ≤ row.base + row.bytes)
    (hw : txnIsWrite t = true → row.writable = true) : admission cap t = .admitted row.region := by
  unfold admission
  rw [h]
  simp only
  rw [if_neg (by simpa using hs), if_neg (by simpa using ha), if_neg (by omega)]
  rw [if_neg (fun hc => by rw [hw hc.1] at hc; cases hc.2)]

/-- A 32-bit write to MSG_LEN is admitted. -/
theorem admission_writeMsgLen (cap : Nat) (data : Word) : admission cap (.write 0x0008 .four data) = .admitted .msgLen := by
  rw [admission, show regionRow cap (txnOff (.write 0x0008 .four data)).toNat =
    some ⟨.msgLen, 0x0008, 4, [.four], true⟩ from rfl]
  simp [txnOff, txnSize, sizeBytes]

/-- A 32-bit read of H[i] is admitted. -/
theorem admission_readH (cap : Nat) {i : Nat} (hi : i < 8) :
    admission cap (.read (BitVec.ofNat 16 (0x0040 + 4 * i)) .four) = .admitted .h := by
  interval_cases i <;> rfl

/-- What admission has checked of an admitted transaction (20_memory.md R53). -/
theorem admission_admitted {cap : Nat} {t : Txn} {r : Region} (h : admission cap t = .admitted r) :
    ∃ row, regionRow cap (txnOff t).toNat = some row ∧ row.region = r ∧ txnSize t ∈ row.sizes ∧
      (txnOff t).toNat % sizeBytes (txnSize t) = 0 ∧
      (txnOff t).toNat + sizeBytes (txnSize t) ≤ row.base + row.bytes ∧
      (txnIsWrite t = true → row.writable = true) := by
  unfold admission at h
  split at h
  · cases h
  · next row hrow =>
    refine ⟨row, hrow, ?_⟩
    split at h
    · cases h
    · split at h
      · cases h
      · split at h
        · cases h
        · split at h
          · cases h
          · next h1 h2 h3 h4 =>
            simp only [Admission.admitted.injEq] at h
            refine ⟨h, by simpa using h1, by simpa using h2, by omega, ?_⟩
            intro hw
            cases hr : row.writable with
            | true => rfl
            | false => exact absurd ⟨hw, hr⟩ h4

/-- The region of an admitted write is CMD, MSG_LEN or MSG_BUF (20_memory.md R53). -/
theorem admission_write_region {cap : Nat} {off : Off} {size : BusSize} {data : Word} {r : Region}
    (h : admission cap (.write off size data) = .admitted r) : r = .cmd ∨ r = .msgLen ∨ r = .msgBuf := by
  obtain ⟨row, hrow, rfl, -, -, -, hw⟩ := admission_admitted h
  have hm := (regionRow_mem hrow).1
  have hw' := hw rfl
  simp only [addressMap, List.mem_cons, List.not_mem_nil, or_false] at hm
  rcases hm with rfl | rfl | rfl | rfl | rfl | rfl | rfl | rfl | rfl <;> simp at hw' ⊢

/-- An admitted access to MSG_BUF lies inside the buffer (20_memory.md R53). -/
theorem admission_msgBuf {cap : Nat} {t : Txn} (h : admission cap t = .admitted .msgBuf) :
    msgBufBase ≤ (txnOff t).toNat ∧ (txnOff t).toNat + sizeBytes (txnSize t) ≤ msgBufBase + cap := by
  obtain ⟨row, hrow, hr, -, -, hend, -⟩ := admission_admitted h
  obtain ⟨hm, hb, -⟩ := regionRow_mem hrow
  simp only [addressMap, List.mem_cons, List.not_mem_nil, or_false] at hm
  rcases hm with rfl | rfl | rfl | rfl | rfl | rfl | rfl | rfl | rfl <;> simp at hr
  exact ⟨hb, hend⟩

/-- Everything a transaction can do: rejected, a read, or one of the three writes, each with its answer. -/
theorem transact_cases {t : Txn} {s s' : State} (h : transact t s = .next s') :
    ((∃ why, admission s.msgCap.toNat t = .rejected why) ∧ s' = busError s) ∨
    (∃ r off size, t = .read off size ∧ admission s.msgCap.toNat t = .admitted r ∧ s' = performRead r off.toNat size s) ∨
    (∃ off size data u, t = .write off size data ∧ s' = respond .okay 0 u ∧
      ((admission s.msgCap.toNat t = .admitted .cmd ∧ writeCmd data s = .next u) ∨
       (admission s.msgCap.toNat t = .admitted .msgLen ∧ u = writeMsgLen data s) ∨
       (admission s.msgCap.toNat t = .admitted .msgBuf ∧ u = writeMsgBuf off.toNat size data s))) := by
  unfold transact at h
  split at h
  · next why ha => exact .inl ⟨⟨why, ha⟩, (Host.Outcome.next.inj h).symm⟩
  · next r ha =>
    split at h
    · next off size => exact .inr (.inl ⟨r, off, size, rfl, ha, (Host.Outcome.next.inj h).symm⟩)
    · next off size data =>
      obtain ⟨u, hu, rfl⟩ := mapNext_eq_next.mp h
      refine .inr (.inr ⟨off, size, data, u, rfl, rfl, ?_⟩)
      rcases admission_write_region ha with rfl | rfl | rfl
      · exact .inl ⟨ha, hu⟩
      · exact .inr (.inl ⟨ha, (Host.Outcome.next.inj hu).symm⟩)
      · exact .inr (.inr ⟨ha, (Host.Outcome.next.inj hu).symm⟩)

/-- A 32-bit write to CMD is admitted. -/
theorem transact_writeCmd (w : Word) (s : State) :
    transact (.write 0x0000 .four w) s = mapNext (respond .okay 0) (writeCmd w s) := rfl

/-- An admitted read. -/
theorem transact_read {off : Off} {size : BusSize} {r : Region} {s : State}
    (h : admission s.msgCap.toNat (.read off size) = .admitted r) :
    transact (.read off size) s = .next (performRead r off.toNat size s) := by rw [transact, h]

/-- An admitted write. -/
theorem transact_write {off : Off} {size : BusSize} {data : Word} {r : Region} {s : State}
    (h : admission s.msgCap.toNat (.write off size data) = .admitted r) :
    transact (.write off size data) s = mapNext (respond .okay 0) (performWrite r off.toNat size data s) := by
  rw [transact, h]

/-- A transaction that is not admitted. -/
theorem transact_rejected {t : Txn} {why : AdmissionFailure} {s : State}
    (h : admission s.msgCap.toNat t = .rejected why) : transact t s = .next (busError s) := by rw [transact, h]

/-- Every transaction is answered: it never stops the machine. -/
theorem transact_next (t : Txn) (s : State) : ∃ s', transact t s = .next s' := by
  unfold transact
  split
  · exact ⟨_, rfl⟩
  · next r ha =>
    split
    · exact ⟨_, rfl⟩
    · next off size data =>
      rcases admission_write_region ha with rfl | rfl | rfl
      · obtain ⟨u, hu⟩ := writeCmd_next data s
        exact ⟨_, by rw [performWrite, hu, mapNext_next]⟩
      · exact ⟨_, rfl⟩
      · exact ⟨_, rfl⟩

/-- The STATUS read of `wait` is always admitted. -/
theorem admission_statusRead (cap : Nat) : admission cap statusRead = .admitted .status := rfl

/-- A poll reads STATUS, and takes `wait` off the program once BUSY is 0. -/
theorem pollStatus_eq (s : State) :
    pollStatus s = .next (if (status s).getLsbD 0 then performRead .status 4 .four s
      else popOp (performRead .status 4 .four s)) := by
  simp only [pollStatus, transact, admission_statusRead]
  rfl

/-- Everything a turn of the host can do: nothing, a transaction, or a poll. -/
theorem hostTurn_cases {s t : State} (h : hostTurn s = .next t) :
    (s.program = [] ∧ t = s) ∨
    (∃ x rest, s.program = .txn x :: rest ∧ transact x (popOp s) = .next t) ∨
    (∃ rest, s.program = .wait :: rest ∧
      (t = performRead .status 4 .four s ∨ t = popOp (performRead .status 4 .four s))) := by
  unfold hostTurn at h
  split at h
  · next hp => exact .inl ⟨hp, (Host.Outcome.next.inj h).symm⟩
  · next x rest hp => exact .inr (.inl ⟨x, rest, hp, h⟩)
  · next rest hp =>
    rw [pollStatus_eq] at h
    refine .inr (.inr ⟨rest, hp, ?_⟩)
    have := (Host.Outcome.next.inj h).symm
    split at this
    · exact .inl this
    · exact .inr this

/-- A turn of the host never stops the machine. -/
theorem hostTurn_next (s : State) : ∃ t, hostTurn s = .next t := by
  unfold hostTurn
  split
  · exact ⟨_, rfl⟩
  · exact transact_next _ _
  · rw [pollStatus_eq]; exact ⟨_, rfl⟩

/-- Everything a step can do: the turn that is next, of one of four kinds. -/
theorem takeTurn_cases {s t : State} (h : takeTurn s = .next t) :
    (nextTurn s = .host ∧ hostTurn (popTurn s) = .next t) ∨
    (nextTurn s = .core ∧ sequencerTurn (popTurn s) = .next t) ∨
    (nextTurn s = .reset ∧ t = hardwareReset (popTurn s)) ∨
    (nextTurn s = .powerUp ∧ t = powerUp (popTurn s)) := by
  unfold takeTurn at h
  split at h
  · next hn => exact .inl ⟨hn, h⟩
  · next hn => exact .inr (.inl ⟨hn, h⟩)
  · next hn => exact .inr (.inr (.inl ⟨hn, (Host.Outcome.next.inj h).symm⟩))
  · next hn => exact .inr (.inr (.inr ⟨hn, (Host.Outcome.next.inj h).symm⟩))

end Sys2Proof.Machine
end

