-- ==== Sys2Proof/Laws/PerInstr.lean ====
section
/-!
SUPPORT. The statements made of every command as syntax, one lemma per constructor (30_encoding.md R80-R83).
-/

namespace Sys2Proof.Laws.Shape

/-- A command is well formed, its word has RSVD = 0, and its OPC is one of the three rows of the opcode map
(30_encoding.md R80, R82, R83). -/
def Statement (i : Instr) : Prop :=
  i.wellFormed = true ∧ rsvdField (encode i) = 0 ∧ (opcField (encode i)).toNat < 3

/-- NOP. -/
theorem nop : Statement .nop := by unfold Statement; decide

/-- HASH. -/
theorem hash : Statement .hash := by unfold Statement; decide

/-- INIT. -/
theorem init : Statement .init := by unfold Statement; decide

end Sys2Proof.Laws.Shape
end

