-- ==== Sys2Proof/Laws/Status.lean ====
section
/-!
SUPPORT. The bits of STATUS (10_state.md R35).
-/

namespace Sys2Proof.Machine

/-- Every bit of STATUS, by its place. -/
theorem status_getLsbD (s : State) (i : Nat) :
    (status s).getLsbD i =
      if i = 0 then (busyBit s).getLsbD 0
      else if i = 1 then s.done
      else if 8 ≤ i ∧ i < 12 then (errBits s.err).getLsbD (i - 8)
      else false := by
  simp only [status, BitVec.getLsbD_append, doneBit]
  by_cases h0 : i = 0
  · subst h0; simp
  by_cases h1 : i = 1
  · subst h1; simp
  rw [if_neg h0, if_neg h1, if_neg (by omega), if_neg (by omega)]
  by_cases h8 : i < 8
  · rw [if_pos (by omega), if_neg (by omega)]; simp
  rw [if_neg (by omega)]
  by_cases h12 : i < 12
  · rw [if_pos (by omega), if_pos (by omega)]; congr 1
  · rw [if_neg (by omega), if_neg (by omega)]; simp

/-- STATUS.ERR is bits 11:8. -/
theorem status_err (s : State) : (status s).extractLsb' 8 4 = errBits s.err := by
  apply BitVec.eq_of_getLsbD_eq
  intro i hi
  rw [BitVec.getLsbD_extractLsb', status_getLsbD, if_neg (by omega), if_neg (by omega), if_pos (by omega)]
  simp [hi]

/-- STATUS.BUSY is bit 0. -/
theorem status_busy (s : State) : (status s).getLsbD 0 = decide (s.phase = .processing) := by
  rw [status_getLsbD, if_pos rfl, busyBit]; cases s.phase <;> rfl

/-- STATUS.DONE is bit 1. -/
theorem status_done (s : State) : (status s).getLsbD 1 = s.done := by
  rw [status_getLsbD, if_neg (by omega), if_pos rfl]

end Sys2Proof.Machine
end

