-- ==== Sys2Proof/Tests/Slice0.lean ====
section
/-!
SUPPORT. The model's own tests: well-formedness, command words, the vectors of 95_test_vectors.md (each theorem names
them), and for every statement that has hypotheses a named witness that meets them.
-/

namespace Sys2Proof.Tests

open Sys2Proof.Machine

/-! ## Small states -/

/-- An Idle CORE after reset with the given MSG_LEN. -/
def idleWith (len : Word) : State := { State.reset with msgLen := len }

/-- A CORE busy with a HASH of the empty message. -/
def busy : State := acceptHash State.reset

/-- The same, all its blocks done: Finalize is next. -/
def lastBlock : State := { busy with j := 1, h := hashBlocks busy.p 1 }

/-- A state with the host's turn next and one operation to issue. -/
def issuing (t : Txn) (s : State) : State := { s with program := [.txn t], turns := [.host] }

/-- The bytes of a text of ASCII characters. -/
def ascii (cs : List Char) : List Byte := cs.map (fun c => BitVec.ofNat 8 c.toNat)

/-- The message "abc". -/
def abc : List Byte := [0x61, 0x62, 0x63]

/-! ## Well-formedness: each check refuses an ill-formed term -/

/-- 30 R82: a command has no field that could be ill formed. -/
theorem test_wf_commands : Instr.nop.wellFormed = true ∧ Instr.hash.wellFormed = true ∧ Instr.init.wellFormed = true := by
  decide

/-- 30 R87: a well-formed 4-tuple, and one ill-formed term for each check: a size of 3, an offset of 17 bits, data of 33
bits, and a read with data. -/
theorem test_wf_tuple :
    (⟨.write, 4, 0, 1⟩ : RawTxn).wellFormed = true ∧
    (⟨.write, 3, 0, 1⟩ : RawTxn).wellFormed = false ∧ (⟨.write, 3, 0, 1⟩ : RawTxn).sizeOk = false ∧
    (⟨.write, 4, 0x10000, 1⟩ : RawTxn).wellFormed = false ∧ (⟨.write, 4, 0x10000, 1⟩ : RawTxn).offOk = false ∧
    (⟨.write, 4, 0, 0x100000000⟩ : RawTxn).wellFormed = false ∧ (⟨.write, 4, 0, 0x100000000⟩ : RawTxn).dataOk = false ∧
    (⟨.read, 4, 0, 1⟩ : RawTxn).wellFormed = false ∧ (⟨.read, 4, 0, 1⟩ : RawTxn).readDataOk = false := by decide

/-! ## Command words, written bit by bit from 30 R80 and R83: RSVD (24 bits), then OPC (8 bits) -/

/-- NOP: OPC 0x00. -/
theorem test_decode_nop : decodeTableWord 32 0b000000000000000000000000_00000000 = some .nop := by decide

/-- HASH: OPC 0x01; its first byte is the low one (20 R52). -/
theorem test_decode_hash :
    decodeTableWord 32 0b000000000000000000000000_00000001 = some .hash ∧ decodeBytes [1, 0, 0, 0] = .cmd .hash := by
  decide

/-- INIT: OPC 0x02. -/
theorem test_decode_init : decodeTableWord 32 0b000000000000000000000000_00000010 = some .init := by decide

/-- V-X2, V-X3, V-X4 and R81: an undefined opcode, a word with RSVD ≠ 0 whatever its OPC, and a halfword. -/
theorem test_decode_illegal :
    decode 0x00000003 = .illegal .undefinedOpcode ∧ decode 0x000000FF = .illegal .undefinedOpcode ∧
    decode 0x00000101 = .illegal .reservedBits ∧ decode 0xFFFFFFFF = .illegal .reservedBits ∧
    decodeBytes [1, 0] = .illegal .notOneWord ∧ decodeTableWord 32 0x80000001 = none := by decide

/-- The placed command word is what the step takes. -/
theorem test_withFetchWord :
    nextTurn (State.reset.withFetchWord 32 1) = .host ∧
    (State.reset.withFetchWord 32 1).program = [.txn (.write 0x0000 .four 0x00000001)] := by decide

/-! ## The datapath: vectors of 95 section 2.1 -/

/-- V-A1 to V-A6: the wrap, the five-operand maximum, one operand, and the empty list. -/
theorem test_modularAdd :
    modularAdd 0xFFFFFFFF [0x00000001] = 0x00000000 ∧ modularAdd 0xFFFFFFFF [0xFFFFFFFF] = 0xFFFFFFFE ∧
    modularAdd 0xFFFFFFFF [0xFFFFFFFF, 0xFFFFFFFF, 0xFFFFFFFF, 0xFFFFFFFF] = 0xFFFFFFFB ∧
    modularAdd 0x80000000 [0x80000000] = 0x00000000 ∧ modularAdd 0x12345678 [] = 0x12345678 ∧
    modularAddChecked [] = .error .emptyAdderList :=
  ⟨by decide, by decide, by decide, by decide, by decide, rfl⟩

/-- V-R1 to V-R7 and V-H1 to V-H3: rotations and logical shifts. -/
theorem test_rotr_shr :
    rotr 0x00000001 7 = 0x02000000 ∧ rotr 0x00000001 18 = 0x00004000 ∧ rotr 0x80000000 31 = 0x00000001 ∧
    rotr 0x00000001 31 = 0x00000002 ∧ rotr 0x12345678 7 = 0xf02468ac ∧ rotr 0x12345678 18 = 0x159e048d ∧
    rotr 0xFFFFFFFF 13 = 0xFFFFFFFF ∧ shr 0x80000000 3 = 0x10000000 ∧ shr 0xFFFFFFFF 3 = 0x1FFFFFFF ∧
    shr 0x12345678 3 = 0x02468acf := by decide

/-- V-s0, V-s1, V-S0 and V-S1: the four mixing functions. -/
theorem test_sigmas :
    smallSigma0 0x00000001 = 0x02004000 ∧ smallSigma0 0x80000000 = 0x11002000 ∧ smallSigma0 0xFFFFFFFF = 0x1FFFFFFF ∧
    smallSigma0 0x12345678 = 0xe7fce6ee ∧ smallSigma1 0x00000001 = 0x0000a000 ∧ smallSigma1 0x80000000 = 0x00205000 ∧
    smallSigma1 0xFFFFFFFF = 0x003FFFFF ∧ smallSigma1 0x12345678 = 0xa1f78649 ∧ bigSigma0 0x00000001 = 0x40080400 ∧
    bigSigma0 0x80000000 = 0x20040200 ∧ bigSigma0 0x12345678 = 0x66146474 ∧ bigSigma0 0x6a09e667 = 0xce20b47e ∧
    bigSigma1 0x00000001 = 0x04200080 ∧ bigSigma1 0x80000000 = 0x02100040 ∧ bigSigma1 0x12345678 = 0x3561abda ∧
    bigSigma1 0x510e527f = 0x3587272b := by decide

/-- V-C1 to V-C4 and V-M1 to V-M3. -/
theorem test_ch_maj :
    ch 0xFFFFFFFF 0x12345678 0x9abcdef0 = 0x12345678 ∧ ch 0x00000000 0x12345678 0x9abcdef0 = 0x9abcdef0 ∧
    ch 0xf0f0f0f0 0xaaaaaaaa 0x55555555 = 0xa5a5a5a5 ∧ ch 0x510e527f 0x9b05688c 0x1f83d9ab = 0x1f85c98c ∧
    maj 0xff00ff00 0xf0f0f0f0 0xcccccccc = 0xfcc0fcc0 ∧ maj 0x12345678 0x12345678 0x9abcdef0 = 0x12345678 ∧
    maj 0x6a09e667 0xbb67ae85 0x3c6ef372 = 0x3a6fe667 := by decide

/-! ## Padding, schedule, compression, rendering: vectors of 95 sections 2.2 to 2.5 -/

/-- V-P2: the rows L = 0, 55, 56, 64, 119, 120, 4087, 4088 and 4096. -/
theorem test_paddedLength :
    paddedLength 0 = 64 ∧ paddedLength 55 = 64 ∧ paddedLength 56 = 128 ∧ paddedLength 64 = 128 ∧
    paddedLength 119 = 128 ∧ paddedLength 120 = 192 ∧ paddedLength 4087 = 4096 ∧ paddedLength 4088 = 4160 ∧
    paddedLength 4096 = 4160 ∧ blockCount 4096 = 65 := by decide

/-- V-P1 and V-P3: the padded buffers of "" and "abc". -/
theorem test_pad :
    pad [] = 0x80 :: List.replicate 63 0x00 ∧
    pad abc = [0x61, 0x62, 0x63, 0x80] ++ List.replicate 52 0x00 ++ [0, 0, 0, 0, 0, 0, 0, 0x18] := by decide

/-- V-P4: both blocks of 56 bytes of 'a'; the length field uses two bytes. -/
theorem test_pad_two_blocks :
    chunk (pad (List.replicate 56 0x61)) 0 = List.replicate 56 0x61 ++ 0x80 :: List.replicate 7 0x00 ∧
    chunk (pad (List.replicate 56 0x61)) 1 = List.replicate 56 0x00 ++ [0, 0, 0, 0, 0, 0, 0x01, 0xc0] := by decide

/-- 95 section 2.3: words of the schedule of "abc", one from each kind of row, and the last. -/
theorem test_schedule :
    scheduleWord (schedule (pad abc)) 0 = 0x61626380 ∧ scheduleWord (schedule (pad abc)) 15 = 0x00000018 ∧
    scheduleWord (schedule (pad abc)) 16 = 0x61626380 ∧ scheduleWord (schedule (pad abc)) 17 = 0x000f0000 ∧
    scheduleWord (schedule (pad abc)) 31 = 0xd3b7973b ∧ scheduleWord (schedule (pad abc)) 63 = 0x12b1edeb := by
  decide +kernel

/-- 95 section 2.4, rows 0 and 1, with V-K1: two rounds of "abc". -/
theorem test_rounds :
    temp1 (loadWorking iv) 0x428a2f98 0x61626380 = 0x54da50e8 ∧ temp2 (loadWorking iv) = 0x08909ae5 ∧
    roundsUpTo (loadWorking iv) (schedule (pad abc)) 2 =
      ⟨0x5a6ad9ad, 0x5d6aebcd, 0x6a09e667, 0xbb67ae85, 0x78ce7989, 0xfa2a4622, 0x510e527f, 0x9b05688c⟩ := by
  decide +kernel

/-- S1, V-E1: the digest of the empty message. -/
theorem test_sha256_empty : hashWords [] =
    ⟨0xe3b0c442, 0x98fc1c14, 0x9afbf4c8, 0x996fb924, 0x27ae41e4, 0x649b934c, 0xa495991b, 0x7852b855⟩ := by
  decide +kernel

/-- S2, V-E2: the digest of "abc". -/
theorem test_sha256_abc : hashWords abc =
    ⟨0xba7816bf, 0x8f01cfea, 0x414140de, 0x5dae2223, 0xb00361a3, 0x96177a9c, 0xb410ff61, 0xf20015ad⟩ := by
  decide +kernel

/-- V-K2, V-E4: two blocks, 56 bytes of 'a', with H after the first. -/
theorem test_sha256_two_blocks :
    hashBlocks (pad (List.replicate 56 0x61)) 1 =
      ⟨0x97539b85, 0x1c7ee50b, 0x0b226ec5, 0x4b1f3dbb, 0xe4f116c6, 0xe49b2dd0, 0x31444d1e, 0x25354f3a⟩ ∧
    hashWords (List.replicate 56 0x61) =
      ⟨0xb35439a4, 0xac6f0948, 0xb6d6f9e3, 0xc6af0f5f, 0x590ce20f, 0x1bde7090, 0xef797068, 0x6ec6738a⟩ := by
  decide +kernel

/-- V-E9: leading zeros are kept. -/
theorem test_render : render ⟨0x0000000a, 0, 0, 0, 0, 0, 0, 0⟩ =
    ascii ['0', '0', '0', '0', '0', '0', '0', 'a'] ++ List.replicate 56 0x30 := by decide

/-- V-E12: the first and the last 32-bit read of DIGEST_HEX after "abc". -/
theorem test_digestHex :
    let d : Words8 := ⟨0xba7816bf, 0x8f01cfea, 0x414140de, 0x5dae2223, 0xb00361a3, 0x96177a9c, 0xb410ff61, 0xf20015ad⟩
    lanesOf (digestHexBytes d 0 4) = 0x38376162 ∧ lanesOf (digestHexBytes d 60 4) = 0x64613531 := by decide

/-! ## Commands, status and the bus: vectors of 95 sections 2.6 and 2.7 -/

/-- The answer and the value of STATUS after a transaction; none where the machine stops. -/
def answerOf (o : Host.Outcome State Fault Refusal) : Option (Option Response × Word) :=
  match o with
  | .next t => some (t.responses.head?, status t)
  | .fault _ => none
  | .refused _ => none

/-- V-X1: NOP leaves STATUS = 0x002. -/
theorem test_nop : answerOf (transact (.write 0x0000 .four 0) { State.reset with done := true }) =
    some (some ⟨.okay, 0⟩, 0x002) := by decide

/-- V-X2 to V-X4: illegal words. -/
theorem test_illegal :
    answerOf (transact (.write 0x0000 .four 0x00000003) State.reset) = some (some ⟨.okay, 0⟩, 0x100) ∧
    answerOf (transact (.write 0x0000 .four 0x00000101) State.reset) = some (some ⟨.okay, 0⟩, 0x100) ∧
    answerOf (transact (.write 0x0000 .four 0xFFFFFFFF) State.reset) = some (some ⟨.okay, 0⟩, 0x100) := by decide

/-- V-X5: MSG_LEN = 4097 is refused. -/
theorem test_hash_too_long : answerOf (transact (.write 0x0000 .four 1) (idleWith 4097)) =
    some (some ⟨.okay, 0⟩, 0x200) := by decide

/-- V-X12: HASH is accepted, and clears ERR. -/
theorem test_hash_accepted : answerOf (transact (.write 0x0000 .four 1) { State.reset with err := .illegalCmd }) =
    some (some ⟨.okay, 0⟩, 0x001) := by decide

/-- V-X6: MSG_LEN = 4096 is accepted, with PAD_LEN = 4160 and N = 65; said through the padded length, since P's bytes are
free values here. -/
theorem test_hash_longest : (acceptHash (idleWith 4096)).padLen = 4160 ∧ (acceptHash (idleWith 4096)).n = 65 := by
  have h : (pad (message (idleWith 4096))).length = 4160 := by rw [pad_message_length]; decide
  exact ⟨congrArg (BitVec.ofNat 32) h, congrArg (· / 64) h⟩

/-- V-X7 to V-X10: an INIT, an illegal word, and writes to MSG_LEN and MSG_BUF while busy. -/
theorem test_while_busy :
    answerOf (transact (.write 0x0000 .four 2) busy) = some (some ⟨.okay, 0⟩, 0x301) ∧
    answerOf (transact (.write 0x0000 .four 0x103) busy) = some (some ⟨.okay, 0⟩, 0x301) ∧
    answerOf (transact (.write 0x0008 .four 5) busy) = some (some ⟨.okay, 0⟩, 0x401) ∧
    answerOf (transact (.write 0x1000 .one 0x41) busy) = some (some ⟨.okay, 0⟩, 0x401) := by decide

/-- V-X11: INIT clears ERR, DIGEST and PAD_LEN and restores H. -/
theorem test_init : exec .init { State.reset with err := .illegalCmd, padLen := 64, digest := iv, h := zeroWords } =
    .next State.reset := by rfl

/-- V-X13: Finalize keeps ERR. -/
theorem test_finalize : status (finalize { lastBlock with err := .cmdWhileBusy }) = 0x302 ∧
    (finalize lastBlock).digest = lastBlock.h ∧ (finalize lastBlock).h = iv := ⟨by decide, rfl, rfl⟩

/-- V-B1 to V-B7: word registers by size, alignment and direction. -/
theorem test_admission_words :
    admission 4096 (.read 0x0004 .four) = .admitted .status ∧ admission 4096 (.read 0x0004 .one) = .rejected .sizeNotAllowed ∧
    admission 4096 (.read 0x0006 .four) = .rejected .misaligned ∧
    admission 4096 (.write 0x0040 .four 1) = .rejected .notWritable ∧
    admission 4096 (.write 0x0004 .four 0) = .rejected .notWritable ∧ admission 4096 (.read 0x0014 .four) = .rejected .unmapped ∧
    admission 4096 (.read 0x0000 .four) = .admitted .cmd ∧
    admission 4096 (.write 0x0000 .two 1) = .rejected .sizeNotAllowed := by decide

/-- V-B9 to V-B14: DIGEST_HEX and the end of MSG_BUF. -/
theorem test_admission_bytes :
    admission 4096 (.read 0x0081 .two) = .rejected .misaligned ∧ admission 4096 (.read 0x00BF .one) = .admitted .digestHex ∧
    admission 4096 (.write 0x0080 .four 0) = .rejected .notWritable ∧
    admission 4096 (.write 0x1FFC .four 7) = .admitted .msgBuf ∧ admission 4094 (.write 0x1FFC .four 7) = .rejected .overrun ∧
    admission 4096 (.read 0x2000 .four) = .rejected .unmapped := by decide

/-- V-B15 and V-B16: the lanes of MSG_BUF. -/
theorem test_lanes :
    let m := writeLanes [] 0x1000 0x00636261 4
    Memory.read m 0x1001 = some 0x62 ∧
    lanesOf (msgBufBytes { State.reset with mem := writeLanes m 0x1002 0xBEEF 2 } 0 4) = 0xBEEF6261 :=
  ⟨by decide, by decide⟩

/-! ## Host program syntax (30 R86 to R88) -/

/-- The listing of 30 R87's example, both ways. -/
theorem test_listing :
    listing (.write 0x0000 .four 0x00000001) =
      ['W', '4', ' ', '0', '0', '0', '0', ' ', '0', '0', '0', '0', '0', '0', '0', '1'] ∧
    readListing ['R', '2', ' ', '0', '0', '8', '2', ' ', '0', '0', '0', '0', '0', '0', '0', '0'] =
      some (.read 0x0082 .two) := by decide

/-- 95 section 4: lines `sw 0x1000, 0x61` and `lw 0x40 -> h0`, `cmd.init` and `setlen 56`. -/
theorem test_lines :
    lineOps ['s', 'w', ' ', '0', 'x', '1', '0', '0', '0', ',', ' ', '0', 'x', '6', '1', ' ', ';', 'c'] =
      some [.txn (.write 0x1000 .four 0x61)] ∧
    lineOps ['l', 'w', ' ', '0', 'x', '4', '0', ' ', '-', '>', ' ', 'h', '0'] = some [.txn (.read 0x0040 .four)] ∧
    lineOps ['c', 'm', 'd', '.', 'i', 'n', 'i', 't'] = some [.txn (.write 0x0000 .four 2)] ∧
    lineOps ['s', 'e', 't', 'l', 'e', 'n', ' ', '5', '6'] = some [.txn (.write 0x0008 .four 56)] := by decide

/-- 30 R88: `hash "abcde"`, with a word, a tail byte, the length, the command and the wait. -/
theorem test_expansion : expandPseudo (.hash (abc ++ [0x64, 0x65])) =
    [.txn (.write 0x1000 .four 0x64636261), .txn (.write 0x1004 .one 0x65), .txn (.write 0x0008 .four 5),
     .txn (.write 0x0000 .four 1), .wait] := by decide

/-! ## Witnesses: states and operands that meet the hypotheses of each statement -/

/-- A busy CORE that meets the invariant: it is busy with the empty message, no block done. -/
theorem busy_inv : Inv busy :=
  ⟨⟨List.Pairwise.nil, nofun⟩, by decide, .inr (by decide), nofun,
    fun _ => ⟨rfl, .inl rfl, rfl, by decide, rfl, by decide, by decide, by decide, rfl⟩, nofun, by decide⟩

/-- The same with one turn of the host to come. -/
def busyHostNext : State := { busy with turns := [.host] }

/-- It meets the invariant too. -/
theorem busyHostNext_inv : Inv busyHostNext :=
  ⟨⟨List.Pairwise.nil, nofun⟩, by decide, .inr (by decide), nofun,
    fun _ => ⟨rfl, .inl rfl, rfl, by decide, rfl, by decide, by decide, by decide, rfl⟩, nofun, by decide⟩

/-- The state after reset meets the invariant. -/
theorem reset_inv : Inv State.reset :=
  ⟨⟨List.Pairwise.nil, nofun⟩, by decide, .inl rfl, fun _ => rfl, nofun, nofun, by decide⟩

/-- The sequencer's turn in `busy` takes its one block, and the turn after it finalizes. -/
theorem busy_run : ∃ t, sequencerRun 2 busy = .next t := by
  obtain ⟨h, v, t, e⟩ := blockStep_shape busy
  refine ⟨finalize (blockStep busy), ?_⟩
  rw [sequencerRun, show sequencerTurn busy = .next (blockStep busy) from rfl]
  simp only
  rw [sequencerRun, e]
  rfl

/-- StepRunsDecodedCommand: the sequencer's turn, a transaction that is not admitted, a HASH in an Idle CORE, and an INIT
while busy. -/
theorem test_meets_StepRunsDecodedCommand :
    nextTurn busy = .core ∧
    (nextTurn (issuing (.read 0x0014 .four) busy) = .host ∧
      (issuing (.read 0x0014 .four) busy).program = .txn (.read 0x0014 .four) :: []) ∧
    (nextTurn (State.reset.withFetchWord 32 1) = .host ∧
      (State.reset.withFetchWord 32 1).program = .txn (.write 0x0000 .four 1) :: [] ∧ decode 1 = .cmd .hash) ∧
    (nextTurn (busy.withFetchWord 32 2) = .host ∧
      (busy.withFetchWord 32 2).program = .txn (.write 0x0000 .four 2) :: [] ∧ decode 2 = .cmd .init) := by decide

/-- CmdWriteDispatch: busy; Idle with a command; Idle with an illegal word; a byte, a halfword and a misaligned word. -/
theorem test_meets_CmdWriteDispatch :
    busy.phase = .processing ∧ (State.reset.phase = .idle ∧ decode 0 = .cmd .nop) ∧
    (State.reset.phase = .idle ∧ decode 0x80000000 = .illegal .reservedBits) ∧
    ((0 : Off).toNat < 4 ∧ BusSize.one ≠ .four) ∧ ((3 : Off).toNat < 4 ∧ BusSize.two ≠ .four) ∧
    ((1 : Off).toNat < 4 ∧ (1 : Off).toNat % sizeBytes .four ≠ 0) := by decide

/-- DecodeInvertsEncode: a word that decodes to each command. -/
theorem test_meets_DecodeInvertsEncode :
    decode 0 = .cmd .nop ∧ decode 1 = .cmd .hash ∧ decode 2 = .cmd .init := by decide

/-- NopDoesNothing, InitRestoresConstruction, CommandWhileBusyDropped: an Idle CORE, a busy one, and a busy one with all
its blocks done. -/
theorem test_meets_phase :
    State.reset.phase = .idle ∧ busy.phase = .processing ∧ lastBlock.phase = .processing ∧ lastBlock.j = lastBlock.n := by
  exact ⟨rfl, rfl, rfl, by decide⟩

/-- HashAcceptsOrRefuses: the longest message accepted, the empty one in the smallest buffer, the shortest refused, the
longest refused, and a busy CORE. -/
theorem test_meets_HashAcceptsOrRefuses :
    ((idleWith 4096).phase = .idle ∧ (idleWith 4096).msgLen.toNat ≤ (idleWith 4096).msgCap.toNat) ∧
    ((State.resetWith 0).phase = .idle ∧ (State.resetWith 0).msgLen.toNat ≤ (State.resetWith 0).msgCap.toNat) ∧
    ((idleWith 4097).phase = .idle ∧ (idleWith 4097).msgCap.toNat < (idleWith 4097).msgLen.toNat) ∧
    ((idleWith 0xFFFFFFFF).phase = .idle ∧ (idleWith 0xFFFFFFFF).msgCap.toNat < (idleWith 0xFFFFFFFF).msgLen.toNat) ∧
    busy.phase = .processing := by decide

/-- CommandFrame: each command in an Idle CORE, and a command while busy. -/
theorem test_meets_CommandFrame :
    (∃ t, exec .nop State.reset = .next t) ∧ (∃ t, exec .hash State.reset = .next t) ∧
    (∃ t, exec .init State.reset = .next t) ∧ (∃ t, exec .init busy = .next t ∧ busy.phase = .processing) :=
  ⟨⟨_, rfl⟩, ⟨_, rfl⟩, ⟨_, rfl⟩, ⟨_, rfl, rfl⟩⟩

/-- IllegalCommandRefused: the lowest and the highest undefined opcode, and the lowest and the highest word with RSVD ≠ 0. -/
theorem test_meets_IllegalCommandRefused :
    State.reset.phase = .idle ∧ 3 ≤ ((0x00000003 : Word).extractLsb' 0 8).toNat ∧
    3 ≤ ((0x000000FF : Word).extractLsb' 0 8).toNat ∧ (0x00000100 : Word).extractLsb' 8 24 ≠ 0 ∧
    (0xFFFFFFFF : Word).extractLsb' 8 24 ≠ 0 := by decide

/-- ErrorPriority: one transaction for each of its five clauses. -/
theorem test_meets_ErrorPriority :
    admission busy.msgCap.toNat (.write 0x0001 .four 1) = .rejected .misaligned ∧
    (admission busy.msgCap.toNat (.write 0x0000 .four 0xFFFFFFFF) = .admitted .cmd ∧ busy.phase = .processing) ∧
    (admission busy.msgCap.toNat (.write 0x1FFF .one 1) = .admitted .msgBuf ∧ Region.msgBuf ≠ .cmd) ∧
    (admission busy.msgCap.toNat (.write 0x0008 .four 1) = .admitted .msgLen ∧ Region.msgLen ≠ .cmd) ∧
    (admission State.reset.msgCap.toNat (.write 0x0000 .four 3) = .admitted .cmd ∧ State.reset.phase = .idle ∧
      decode 3 = .illegal .undefinedOpcode) ∧
    (admission (idleWith 4097).msgCap.toNat (.write 0x0000 .four 1) = .admitted .cmd ∧ (idleWith 4097).phase = .idle ∧
      decode 1 = .cmd .hash ∧ (idleWith 4097).msgCap.toNat < (idleWith 4097).msgLen.toNat) := by decide

/-- ErrorClearingExact: a step from a state with an error, and one from a state with DONE = 1. -/
theorem test_meets_ErrorClearingExact :
    (∃ t, step (issuing (.write 0x0000 .four 2) { State.reset with err := .illegalCmd }) = .next t) ∧
    ({ State.reset with err := .illegalCmd } : State).err ≠ .none ∧
    (∃ t, step (issuing (.write 0x0000 .four 3) { State.reset with done := true }) = .next t) ∧
    ({ State.reset with done := true } : State).done = true := ⟨⟨_, rfl⟩, by decide, ⟨_, rfl⟩, rfl⟩

/-- 60_exceptions.md R226, "A NOP clears nothing": with ERR = 3 and DONE = 1, as a Finalize can leave them, a NOP and a write to
MSG_LEN keep both. -/
theorem test_nop_clears_nothing :
    let s := { State.reset with err := .cmdWhileBusy, done := true }
    answerOf (step (issuing (.write 0x0000 .four 0) s)) = some (some ⟨.okay, 0⟩, 0x302) ∧
    answerOf (step (issuing (.write 0x0008 .four 5) s)) = some (some ⟨.okay, 0⟩, 0x302) := by decide

/-- RaisesError holds somewhere in each of its cases: an admitted write while busy, and in an Idle CORE an illegal word and a
HASH of a message too long. -/
theorem test_raisesError :
    RaisesError (issuing (.write 0x1000 .one 0x41) busy) ∧ RaisesError (issuing (.write 0x0000 .four 3) State.reset) ∧
    RaisesError (issuing (.write 0x0000 .four 1) (idleWith 4097)) :=
  ⟨.inl ⟨rfl, .msgBuf, 0x41, .inr (.inr rfl), rfl, _, _, _, rfl, by decide⟩,
   .inr ⟨rfl, 3, ⟨rfl, _, _, _, rfl, by decide⟩, .inl ⟨.undefinedOpcode, by decide⟩⟩,
   .inr ⟨rfl, 1, ⟨rfl, _, _, _, rfl, by decide⟩, .inr ⟨by decide, by decide⟩⟩⟩

/-- SequencerStopsOnlyPastTheEnd: its stuck state has no next state. -/
theorem test_meets_SequencerStopsOnlyPastTheEnd : ∀ t, step { busy with j := 2 } ≠ .next t := by
  intro t h
  rw [show step { busy with j := 2 } = .fault .sequencerStuck from rfl] at h
  cases h

/-- BlockStepCompresses, FinalizeLatchesDigest and SequencerStopsOnlyPastTheEnd: a block left, none left, Idle, and the stuck
state of log 13. -/
theorem test_meets_sequencer :
    (busy.phase = .processing ∧ busy.j < busy.n) ∧ (lastBlock.phase = .processing ∧ lastBlock.j = lastBlock.n) ∧
    State.reset.phase = .idle ∧
    (({ busy with j := 2 } : State).phase = .processing ∧ ({ busy with j := 2 } : State).n < ({ busy with j := 2 } : State).j) :=
  ⟨by decide, ⟨rfl, by decide⟩, rfl, rfl, by decide⟩

/-- RotationMovesBits and DatapathBitByBit: the first and the last bit and rotation. -/
theorem test_meets_bits : (1 ≤ 1 ∧ 1 ≤ 31 ∧ 0 < 32) ∧ (1 ≤ 31 ∧ 31 ≤ 31 ∧ 31 < 32) := by decide

/-- ModularAddLaws: a list and another order of it. -/
theorem test_meets_ModularAddLaws : ([0xFFFFFFFF, 0x00000001] : List Word).Perm [0x00000001, 0xFFFFFFFF] :=
  List.Perm.swap _ _ _

/-- PaddedLengthSmallest: a multiple of 64 with room, at equality, and the three ranges at their ends. -/
theorem test_meets_PaddedLengthSmallest :
    (64 % 64 = 0 ∧ 55 + 9 ≤ 64) ∧ 55 ≤ 55 ∧ (56 ≤ 56 ∧ 119 ≤ 119) ∧ (4088 ≤ 4096 ∧ 4096 ≤ 4096) := by decide

/-- PaddedBufferBytes: the message's last byte, the marker, a zero, and the first and last byte of the length field. -/
theorem test_meets_PaddedBufferBytes :
    2 < (pad abc).length ∧ 3 < (pad abc).length ∧ 55 < (pad abc).length ∧ 56 < (pad abc).length ∧ 63 < (pad abc).length := by
  decide

/-- ChunksCoverTheBuffer: the padded buffer of "abc", and its last byte. -/
theorem test_meets_ChunksCoverTheBuffer : (pad abc).length = 64 * 1 ∧ 0 < 1 ∧ 63 < 64 := by decide

/-- ScheduleReadsBigEndian, ScheduleRecurrence and RenderIsLowercaseHex: the ends of their index ranges. -/
theorem test_meets_indexes : 15 < 16 ∧ (16 ≤ 16 ∧ 16 < 64) ∧ (16 ≤ 63 ∧ 63 < 64) ∧ (7 < 8) := by decide

/-- RenderInjective: two digests with one rendering. -/
theorem test_meets_RenderInjective : render iv = render State.reset.h := rfl

/-- RejectedTransactionChangesNothing: a read of a reserved offset. -/
theorem test_meets_RejectedTransactionChangesNothing : ∀ r, admission State.reset.msgCap.toNat (.read 0x0014 .four) ≠ .admitted r := by
  intro r h
  rw [show admission State.reset.msgCap.toNat (.read 0x0014 .four) = .rejected .unmapped by decide] at h
  cases h

/-- WordRegisterReads and ReadsWhileBusy: the last index, Idle and busy, and an admitted read of another region. -/
theorem test_meets_reads :
    7 < 8 ∧ State.reset.phase = .idle ∧ busy.phase = .processing ∧
    admission busy.msgCap.toNat (.read 0x1FFC .four) = .admitted .msgBuf ∧ Region.msgBuf ≠ .h ∧ Region.msgBuf ≠ .status := by
  decide

/-- ReadsChangeNothing: an admitted read, and one that is not. -/
theorem test_meets_ReadsChangeNothing :
    (∃ t, transact (.read 0x0008 .four) State.reset = .next t) ∧ (∃ t, transact (.read 0x0009 .four) State.reset = .next t) ∧
    State.reset.phase = .idle :=
  ⟨transact_next _ _, transact_next _ _, rfl⟩

/-- DigestHexReadLanes: the last word, halfword and byte of the view. -/
theorem test_meets_DigestHexReadLanes :
    (60 + sizeBytes .four ≤ 64 ∧ 60 % sizeBytes .four = 0) ∧ (62 + sizeBytes .two ≤ 64 ∧ 62 % sizeBytes .two = 0) ∧
    (63 + sizeBytes .one ≤ 64 ∧ 63 % sizeBytes .one = 0) := by decide

/-- MsgBufReadLanes and MsgBufWrite: the last word of the buffer, Idle and busy, and the last byte of a buffer of one. -/
theorem test_meets_msgBuf :
    (State.reset.msgCap.toNat ≤ 4096 ∧ 4092 + sizeBytes .four ≤ State.reset.msgCap.toNat ∧ 4092 % sizeBytes .four = 0 ∧
      State.reset.phase = .idle) ∧
    (busy.msgCap.toNat ≤ 4096 ∧ 4092 + sizeBytes .four ≤ busy.msgCap.toNat ∧ busy.phase = .processing) ∧
    (0 + sizeBytes .one ≤ (State.resetWith 1).msgCap.toNat ∧ 0 % sizeBytes .one = 0) := by decide

/-- The state after reset with a power-up to come. -/
def powerUpNext : State := { State.reset with turns := [.powerUp] }

/-- ResetSetsEveryRegister: a reset while busy and one while Idle, and a power-up in a state that meets the invariant. -/
theorem test_meets_ResetSetsEveryRegister :
    (ResetNext { busy with turns := [.reset] } ∧ nextTurn { busy with turns := [.reset] } = .reset) ∧
    (ResetNext { State.reset with turns := [.reset] } ∧ nextTurn { State.reset with turns := [.reset] } = .reset) ∧
    (ResetNext powerUpNext ∧ nextTurn powerUpNext = .powerUp ∧ Inv powerUpNext) :=
  ⟨⟨.inl rfl, rfl⟩, ⟨.inl rfl, rfl⟩, .inr rfl, rfl,
   ⟨⟨List.Pairwise.nil, nofun⟩, by decide, .inl rfl, fun _ => rfl, nofun, nofun, by decide⟩⟩

/-- HashStateWriters and DigestWriters: a Finalize, an INIT and a reset, each changing both. -/
theorem test_meets_writers :
    (∃ t, step { busy with j := 1, h := zeroWords } = .next t ∧ t.h ≠ zeroWords) ∧
    (∃ t, step { lastBlock with digest := iv, h := zeroWords } = .next t ∧ t.digest ≠ iv) ∧
    (∃ t, step (issuing (.write 0x0000 .four 2) { State.reset with h := zeroWords, digest := iv }) = .next t ∧
      t.h ≠ zeroWords ∧ t.digest ≠ iv) ∧
    (∃ t, step { State.reset with h := zeroWords, digest := iv, turns := [.reset] } = .next t ∧ t.h ≠ zeroWords ∧
      t.digest ≠ iv) := by
  refine ⟨⟨_, rfl, by decide⟩, ⟨_, rfl, by decide⟩, ⟨_, rfl, by decide, by decide⟩, ⟨_, rfl, ?_, ?_⟩⟩
  · exact (by decide : iv ≠ zeroWords)
  · exact (by decide : zeroWords ≠ iv)

/-- MsgBufWriters: a write to MSG_BUF, and a power-up, each changing its cells. -/
theorem test_meets_MsgBufWriters :
    (∃ t, step (issuing (.write 0x1000 .one 0x41) State.reset) = .next t ∧ t.mem ≠ []) ∧
    (∃ t, step { State.reset with mem := [(0x1000, 0x41)], turns := [.powerUp] } = .next t ∧ t.mem ≠ [(0x1000, 0x41)]) :=
  ⟨⟨_, rfl, by decide⟩, ⟨_, rfl, (by decide : ([] : List Host.Cell) ≠ [(0x1000, 0x41)])⟩⟩

/-- InvAfterReset: the ends of MSG_BUF_BYTES' range. -/
theorem test_meets_InvAfterReset :
    (0 : Word).toNat ≤ Config.msgBufBytesMax ∧ (4096 : Word).toNat ≤ Config.msgBufBytesMax := by decide

/-- StepKeepsInv and StepNeverStops: an Idle CORE and a busy one, with a step from each. -/
theorem test_meets_StepKeepsInv :
    (Inv State.reset ∧ ∃ t, step State.reset = .next t) ∧ (Inv busy ∧ ∃ t, step busy = .next t) :=
  ⟨⟨reset_inv, _, rfl⟩, ⟨busy_inv, _, rfl⟩⟩

/-- HashComputesSha256: the longest message of the largest buffer, and the empty one of the smallest. -/
theorem test_meets_HashComputesSha256 :
    ((idleWith 4096).phase = .idle ∧ (idleWith 4096).h = iv ∧ (idleWith 4096).msgLen.toNat ≤ (idleWith 4096).msgCap.toNat ∧
      (idleWith 4096).msgCap.toNat ≤ Config.msgBufBytesMax) ∧
    ((State.resetWith 0).phase = .idle ∧ (State.resetWith 0).h = iv ∧
      (State.resetWith 0).msgLen.toNat ≤ (State.resetWith 0).msgCap.toNat ∧
      (State.resetWith 0).msgCap.toNat ≤ Config.msgBufBytesMax) := by decide

/-- SameMessageSameDigest: the empty message on two instances whose states differ. -/
theorem test_meets_SameMessageSameDigest :
    ∃ u u' t t', State.reset.phase = .idle ∧ State.reset.h = iv ∧ State.reset.msgLen.toNat ≤ State.reset.msgCap.toNat ∧
      message State.reset = message { State.reset with draws := 1 } ∧
      exec .hash State.reset = .next u ∧ sequencerRun (blockCount State.reset.msgLen.toNat + 1) u = .next t ∧
      exec .hash { State.reset with draws := 1 } = .next u' ∧
      sequencerRun (blockCount State.reset.msgLen.toNat + 1) u' = .next t' := by
  obtain ⟨t, ht⟩ := busy_run
  have h : ∃ t', sequencerRun 2 (acceptHash { State.reset with draws := 1 }) = .next t' := by
    obtain ⟨h, v, t, e⟩ := blockStep_shape (acceptHash { State.reset with draws := 1 })
    refine ⟨finalize (blockStep (acceptHash { State.reset with draws := 1 })), ?_⟩
    rw [sequencerRun, show sequencerTurn (acceptHash { State.reset with draws := 1 }) =
      .next (blockStep (acceptHash { State.reset with draws := 1 })) from rfl]
    simp only
    rw [sequencerRun, e]
    rfl
  obtain ⟨t', ht'⟩ := h
  exact ⟨_, _, t, t', rfl, rfl, by decide, rfl, rfl, ht, rfl, ht'⟩

/-- BusyStepKeepsPromise: the host's turn, and the sequencer's. -/
theorem test_meets_BusyStepKeepsPromise :
    (Inv busyHostNext ∧ busyHostNext.phase = .processing ∧ ¬ ResetNext busyHostNext ∧ ∃ t, step busyHostNext = .next t) ∧
    (Inv busy ∧ busy.phase = .processing ∧ ¬ ResetNext busy ∧ ∃ t, step busy = .next t) :=
  ⟨⟨busyHostNext_inv, rfl, by unfold ResetNext; decide, _, rfl⟩, busy_inv, rfl, by unfold ResetNext; decide, _, rfl⟩

/-- HashTerminates: no turn to come but the sequencer's own, and one turn of the host before it. -/
theorem test_meets_HashTerminates :
    (Inv busy ∧ busy.phase = .processing ∧ noResetAhead busy = true) ∧
    (Inv busyHostNext ∧ busyHostNext.phase = .processing ∧ noResetAhead busyHostNext = true) :=
  ⟨⟨busy_inv, rfl, by decide⟩, busyHostNext_inv, rfl, by decide⟩

/-- WaitPollsStatus: `wait` is next, busy and Idle. -/
theorem test_meets_WaitPollsStatus :
    ({ busy with program := [.wait] } : State).program = .wait :: [] ∧
    ({ State.reset with program := [.wait] } : State).program = .wait :: [] := ⟨rfl, rfl⟩

/-- MsgExpansionLoadsMessage: three bytes in a buffer of three, with turns of both agents to come, and no byte in a buffer of
none. -/
theorem test_meets_MsgExpansionLoadsMessage :
    let s := { State.resetWith 3 with program := expandPseudo (.msg abc) ++ [], turns := [.core, .host, .core] }
    let z := { State.resetWith 0 with program := expandPseudo (.msg []) ++ [] }
    (s.phase = .idle ∧ noResetAhead s = true ∧ s.msgCap.toNat ≤ Config.msgBufBytesMax ∧ abc.length ≤ s.msgCap.toNat ∧
      s.program = expandPseudo (.msg abc) ++ []) ∧
    (z.phase = .idle ∧ noResetAhead z = true ∧ z.msgCap.toNat ≤ Config.msgBufBytesMax ∧
      ([] : List Byte).length ≤ z.msgCap.toNat ∧ z.program = expandPseudo (.msg []) ++ []) := by decide

/-- Two instances whose windows do not meet. -/
def pair : List CoreInstance := [⟨0x0, State.reset⟩, ⟨0x20000, busy⟩]

/-- InstancesShareNothing: a step of the second instance, addresses just outside a window, the last address of the second
window, and an address in no window. -/
theorem test_meets_InstancesShareNothing :
    (∃ ds, platformStep 1 pair = .next ds) ∧ ((0xFFFF < 0x10000) ∧ (0x10000 + 0xFFFF < 0x20000)) ∧
    (pair[1]? = some ⟨0x20000, busy⟩ ∧ offsetIn 0x20000 0x2FFFF = some 0xFFFF ∧
      ∀ x < 1, ∀ d, pair[x]? = some d → offsetIn d.base 0x2FFFF = none) ∧
    (∀ c ∈ pair, offsetIn c.base 0x10000 = none) := by
  refine ⟨⟨_, rfl⟩, by decide, ⟨rfl, by decide, ?_⟩, ?_⟩
  · intro x hx d hd
    obtain rfl : x = 0 := by omega
    cases hd
    decide
  · intro c hc
    simp only [pair, List.mem_cons, List.not_mem_nil, or_false] at hc
    rcases hc with rfl | rfl <;> decide

end Sys2Proof.Tests
end

section
/-!
The values of the state that need no run: the ROMs, the fields of STATUS, and the state after power-up and reset
(10_state.md R22, R23, R35, R36, R38).
-/

namespace Sys2Proof.Machine

/-- Settles O45: each table is the concatenation of its rows. -/
theorem romTables : Obligations.RomTables :=
  ⟨rfl, rfl, rfl, rfl, rfl, rfl, rfl, rfl, rfl⟩

/-- A range of STATUS that meets neither BUSY and DONE nor ERR reads 0 (10_state.md R35). -/
theorem status_reserved (s : State) {start len : Nat} (h2 : 2 ≤ start) (h : start + len ≤ 8 ∨ 12 ≤ start) :
    (status s).extractLsb' start len = 0 := by
  apply BitVec.eq_of_getLsbD_eq
  intro i hi
  rw [BitVec.getLsbD_extractLsb', status_getLsbD, if_neg (by omega), if_neg (by omega), if_neg (by omega)]
  simp

/-- Settles O16, from the bits of STATUS by place. -/
theorem statusFields : Obligations.StatusFields := by
  intro s
  refine ⟨by rw [status_busy, decide_eq_true_iff], status_done s, status_reserved s (by omega) (.inl (by omega)), ?_,
    status_reserved s (by omega) (.inr (by omega))⟩
  rw [status_err]
  cases s.err <;> rfl

/-- Every word of the zero file is 0. -/
theorem wordAt_zeroWords {i : Nat} (hi : i < 8) : wordAt zeroWords i = 0 := by
  interval_cases i <;> rfl

/-- Every nibble of the word 0 is 0. -/
theorem nibble_zero (i : Nat) : nibble 0 i = 0 := BitVec.extractLsb'_zero

/-- DIGEST_HEX of the zero digest shows the character `0` throughout (10_state.md R30). -/
theorem digestHexByte_zeroWords {c : Nat} (hc : c < 64) : digestHexByte zeroWords c = 0x30 := by
  rw [digestHexByte, wordAt_zeroWords (by omega), nibble_zero]
  rfl

/-- STATUS of an Idle CORE with no error and no digest to announce reads 0. -/
theorem status_eq_zero {s : State} (hp : s.phase = .idle) (he : s.err = .none) (hd : s.done = false) :
    status s = 0 := by
  rw [status, busyBit, doneBit, hp, he, hd]
  rfl

/-- Settles O47: the registers as `State.resetWith` lists them, and the views computed from them. -/
theorem resetValues : Obligations.ResetValues :=
  fun _ => ⟨status_eq_zero rfl rfl rfl, rfl, rfl, rfl, rfl, fun _ => wordAt_zeroWords,
    fun _ => digestHexByte_zeroWords, fun _ => rfl, rfl, rfl⟩

/-- Settles O51: no cell is listed, H = IV, and no HASH is in progress. -/
theorem invAfterReset : Obligations.InvAfterReset := fun cap hcap =>
  { buffer := ⟨resetWith_mem_wf cap, nofun⟩
    capacity := hcap
    padLen := .inl rfl
    idle := fun _ => rfl
    busy := nofun
    doneClean := nofun
    drawn := le_rfl }

end Sys2Proof.Machine
end

section
/-!
Who writes H, DIGEST and MSG_BUF (10_state.md R21, R29, R31, R34): one lemma says what a host turn can write, and each
statement is then a case split over the four kinds of turn.
-/

namespace Sys2Proof.Machine

/-- A command word is RSVD above OPC (30_encoding.md R80). -/
theorem rsvdField_append_opcField (w : Word) : rsvdField w ++ opcField w = w := by
  apply BitVec.eq_of_getLsbD_eq
  intro i hi
  rw [BitVec.getLsbD_append, rsvdField, opcField]
  by_cases h : i < 8
  · simp [h]
  · have hle : 8 ≤ i := by omega
    simp [h, hle]
    omega

/-- A word that decodes to a command is that command's word (30_encoding.md R83). -/
theorem eq_encode_of_decode {w : Word} {i : Instr} (h : decode w = .cmd i) : w = encode i := by
  rw [← rsvdField_append_opcField w]
  unfold decode at h
  split at h
  · cases h
  next hr =>
  rw [not_not.mp hr]
  split at h
  · next ho => rw [ho]; cases h; rfl
  split at h
  · next ho => rw [ho]; cases h; rfl
  split at h
  · next ho => rw [ho]; cases h; rfl
  · cases h

/-- The one access to CMD that admission lets through is the 32-bit one at offset 0 (20_memory.md R53, R56). -/
theorem admission_cmd {cap : Nat} {t : Txn} (h : admission cap t = .admitted .cmd) :
    txnOff t = 0x0000 ∧ txnSize t = .four := by
  obtain ⟨row, hrow, hr, hsize, halign, -, -⟩ := admission_admitted h
  rcases regionRow_cases hrow with ⟨hoff, rfl⟩ | ⟨-, -, rfl⟩ | ⟨-, -, rfl⟩ | ⟨-, -, rfl⟩ | ⟨-, -, rfl⟩ |
    ⟨-, -, rfl⟩ | ⟨-, -, rfl⟩ | ⟨-, -, rfl⟩ | ⟨-, -, rfl⟩
  case inl =>
    have hfour : txnSize t = .four := by simpa using hsize
    rw [hfour] at halign
    exact ⟨BitVec.eq_of_toNat_eq (by simp only [sizeBytes] at halign; simp; omega), hfour⟩
  all_goals cases hr

/-- What a word written to CMD can write of H, DIGEST, MSG_BUF and MSG_CAP: INIT alone writes H and DIGEST. -/
theorem writeCmd_writes {w : Word} {s t : State} (h : writeCmd w s = .next t) :
    t.msgCap = s.msgCap ∧ t.mem = s.mem ∧
      ((t.h = s.h ∧ t.digest = s.digest) ∨ (s.phase = .idle ∧ w = encode .init)) := by
  rcases writeCmd_cases h with ⟨-, rfl⟩ | ⟨-, -, rfl⟩ | ⟨hp, i, hi, he⟩
  · exact ⟨rfl, rfl, .inl ⟨rfl, rfl⟩⟩
  · exact ⟨rfl, rfl, .inl ⟨rfl, rfl⟩⟩
  rcases exec_cases he with ⟨-, rfl⟩ | ⟨-, -, rfl⟩ | ⟨-, rfl, rfl⟩ | ⟨-, -, -, rfl⟩ | ⟨-, -, -, rfl⟩
  · exact ⟨rfl, rfl, .inl ⟨rfl, rfl⟩⟩
  · exact ⟨rfl, rfl, .inl ⟨rfl, rfl⟩⟩
  · exact ⟨rfl, rfl, .inr ⟨hp, eq_encode_of_decode hi⟩⟩
  · exact ⟨rfl, rfl, .inl ⟨rfl, rfl⟩⟩
  · exact ⟨rfl, rfl, .inl ⟨rfl, rfl⟩⟩

/-- A read writes none of H, DIGEST, MSG_BUF and MSG_CAP (20_memory.md R55). -/
theorem performRead_writes (r : Region) (off : Nat) (size : BusSize) (s : State) :
    (performRead r off size s).msgCap = s.msgCap ∧ (performRead r off size s).h = s.h ∧
      (performRead r off size s).digest = s.digest ∧ (performRead r off size s).mem = s.mem := by
  rw [performRead, countDraw_eq]
  exact ⟨rfl, rfl, rfl, rfl⟩

/-- The transaction `x` in state `s` is a write of INIT's word to CMD of an Idle CORE. -/
def InitWrite (x : Txn) (s : State) : Prop := s.phase = .idle ∧ x = .write 0x0000 .four (encode .init)

/-- The transaction `x` in state `s` is an admitted write to MSG_BUF of an Idle CORE. -/
def BufferWrite (x : Txn) (s : State) : Prop :=
  s.phase = .idle ∧ ∃ off size data, x = .write off size data ∧ admission s.msgCap.toNat x = .admitted .msgBuf

/-- What a transaction can write of H, DIGEST, MSG_BUF and MSG_CAP. -/
theorem transact_writes {x : Txn} {s t : State} (h : transact x s = .next t) :
    t.msgCap = s.msgCap ∧ ((t.h = s.h ∧ t.digest = s.digest) ∨ InitWrite x s) ∧
      (t.mem = s.mem ∨ BufferWrite x s) := by
  rcases transact_cases h with ⟨-, rfl⟩ | ⟨r, off, size, -, -, rfl⟩ |
    ⟨off, size, data, u, rfl, rfl, ⟨ha, hu⟩ | ⟨-, rfl⟩ | ⟨ha, rfl⟩⟩
  · exact ⟨rfl, .inl ⟨rfl, rfl⟩, .inl rfl⟩
  · obtain ⟨hcap, hh, hd, hm⟩ := performRead_writes r off.toNat size s
    exact ⟨hcap, .inl ⟨hh, hd⟩, .inl hm⟩
  · obtain ⟨hoff, hsize⟩ := admission_cmd ha
    obtain ⟨hcap, hm, hw⟩ := writeCmd_writes hu
    obtain rfl : off = 0x0000 := hoff
    obtain rfl : size = .four := hsize
    exact ⟨hcap, hw.imp_right fun ⟨hp, hword⟩ => ⟨hp, congrArg _ hword⟩, .inl hm⟩
  · cases hp : s.phase with
    | idle => rw [writeMsgLen_idle data hp]; exact ⟨rfl, .inl ⟨rfl, rfl⟩, .inl rfl⟩
    | processing => rw [writeMsgLen_busy data hp]; exact ⟨rfl, .inl ⟨rfl, rfl⟩, .inl rfl⟩
  · cases hp : s.phase with
    | idle => rw [writeMsgBuf_idle _ _ _ hp]; exact ⟨rfl, .inl ⟨rfl, rfl⟩, .inr ⟨hp, off, size, data, rfl, ha⟩⟩
    | processing => rw [writeMsgBuf_busy _ _ _ hp]; exact ⟨rfl, .inl ⟨rfl, rfl⟩, .inl rfl⟩

/-- What a turn of the host can write of H, DIGEST, MSG_BUF and MSG_CAP. -/
theorem hostTurn_writes {s t : State} (h : hostTurn s = .next t) :
    t.msgCap = s.msgCap ∧
      ((t.h = s.h ∧ t.digest = s.digest) ∨ ∃ x rest, s.program = .txn x :: rest ∧ InitWrite x s) ∧
      (t.mem = s.mem ∨ ∃ x rest, s.program = .txn x :: rest ∧ BufferWrite x s) := by
  rcases hostTurn_cases h with ⟨-, rfl⟩ | ⟨x, rest, hx, ht⟩ | ⟨rest, -, ht⟩
  · exact ⟨rfl, .inl ⟨rfl, rfl⟩, .inl rfl⟩
  · obtain ⟨hcap, hw, hm⟩ := transact_writes ht
    exact ⟨hcap, hw.imp_right fun hi => ⟨x, rest, hx, hi⟩, hm.imp_right fun hb => ⟨x, rest, hx, hb⟩⟩
  · obtain ⟨hcap, hh, hd, hm⟩ := performRead_writes .status 4 .four s
    rcases ht with rfl | rfl <;> exact ⟨hcap, .inl ⟨hh, hd⟩, .inl hm⟩

/-- What a turn of the sequencer can write of H, DIGEST, MSG_BUF and MSG_CAP: H while busy, DIGEST in Finalize. -/
theorem sequencerTurn_writes {s t : State} (h : sequencerTurn s = .next t) :
    t.msgCap = s.msgCap ∧ (t.h = s.h ∨ s.phase = .processing) ∧
      (t.digest = s.digest ∨ (s.phase = .processing ∧ s.j = s.n)) ∧ t.mem = s.mem := by
  rcases sequencerTurn_cases h with ⟨-, rfl⟩ | ⟨hp, -, rfl⟩ | ⟨hp, hj, rfl⟩
  · exact ⟨rfl, .inl rfl, .inl rfl, rfl⟩
  · obtain ⟨_, _, _, he⟩ := blockStep_shape s
    rw [he]
    exact ⟨rfl, .inr hp, .inl rfl, rfl⟩
  · exact ⟨rfl, .inr hp, .inr ⟨hp, hj⟩, rfl⟩

/-- The host's next turn issues INIT's word where its next operation is the write of it. -/
theorem issuesWord_of_initWrite {s : State} {x : Txn} {rest : List HostOp} (hn : nextTurn s = .host)
    (hx : (popTurn s).program = .txn x :: rest) (hi : InitWrite x (popTurn s)) :
    s.phase = .idle ∧ IssuesWord s (encode .init) := by
  obtain ⟨hp, rfl⟩ := hi
  exact ⟨hp, hn, rest, hx⟩

/-- Settles O48, by the kinds of turn. -/
theorem hashStateWriters : Obligations.HashStateWriters := by
  intro s t h hne
  rcases takeTurn_cases h with ⟨hn, ht⟩ | ⟨hn, ht⟩ | ⟨hn, -⟩ | ⟨hn, -⟩
  · obtain ⟨-, ⟨hh, -⟩ | ⟨x, rest, hx, hi⟩, -⟩ := hostTurn_writes ht
    · exact absurd hh hne
    · exact .inr (.inl (issuesWord_of_initWrite hn hx hi))
  · obtain ⟨-, hh | hp, -, -⟩ := sequencerTurn_writes ht
    · exact absurd hh hne
    · exact .inl ⟨hn, hp⟩
  · exact .inr (.inr (.inl hn))
  · exact .inr (.inr (.inr hn))

/-- Settles O49, by the kinds of turn. -/
theorem digestWriters : Obligations.DigestWriters := by
  intro s t h hne
  rcases takeTurn_cases h with ⟨hn, ht⟩ | ⟨hn, ht⟩ | ⟨hn, -⟩ | ⟨hn, -⟩
  · obtain ⟨-, ⟨-, hd⟩ | ⟨x, rest, hx, hi⟩, -⟩ := hostTurn_writes ht
    · exact absurd hd hne
    · exact .inr (.inl (issuesWord_of_initWrite hn hx hi))
  · obtain ⟨-, -, hd | hlast, -⟩ := sequencerTurn_writes ht
    · exact absurd hd hne
    · exact .inl ⟨hn, hlast⟩
  · exact .inr (.inr (.inl hn))
  · exact .inr (.inr (.inr hn))

/-- Settles O50, by the kinds of turn. -/
theorem msgBufWriters : Obligations.MsgBufWriters := by
  intro s t h
  rcases takeTurn_cases h with ⟨hn, ht⟩ | ⟨-, ht⟩ | ⟨-, rfl⟩ | ⟨hn, rfl⟩
  · obtain ⟨hcap, -, hm⟩ := hostTurn_writes ht
    refine ⟨hcap, fun hne => ?_⟩
    obtain ⟨x, rest, hx, hp, off, size, data, rfl, ha⟩ := hm.resolve_left hne
    exact .inr ⟨hn, hp, off, size, data, rest, hx, ha⟩
  · obtain ⟨hcap, -, -, hm⟩ := sequencerTurn_writes ht
    exact ⟨hcap, fun hne => absurd hm hne⟩
  · exact ⟨rfl, fun hne => absurd rfl hne⟩
  · exact ⟨rfl, fun _ => .inl hn⟩

end Sys2Proof.Machine
end

section
/-!
Every step keeps the invariant: one lemma for each update of the state, from the registers outward to the turns.
-/

namespace Sys2Proof.Machine

/-! ## The block step -/

/-- The last of `count + 1` rounds is a round after the first `count`. -/
theorem roundLoop_succ (count : Nat) (s : State) : roundLoop (count + 1) s = roundStep (roundLoop count s) := by
  induction count generalizing s with
  | zero => rfl
  | succ count ih => rw [roundLoop, ih (roundStep s)]; rfl

/-- Block start and `count` rounds: a..h and t after them (43_compressor.md R160, R165). -/
theorem roundLoop_startBlock (count : Nat) (s : State) :
    roundLoop count (startBlock s) = { s with v := roundsUpTo (loadWorking s.h) s.w count, t := count } := by
  induction count with
  | zero => rfl
  | succ count ih => rw [roundLoop_succ, ih]; rfl

/-- A whole block folds into H what Compress gives (43_compressor.md R167). -/
theorem compressBlock_eq (s : State) :
    compressBlock s =
      { s with h := compress s.h s.w, v := roundsUpTo (loadWorking s.h) s.w 64, t := 64 } := by
  rw [compressBlock, roundLoop_startBlock, compress, endBlock]

/-- The block step, register by register (44_engine.md R185). -/
theorem blockStep_eq (s : State) :
    blockStep s =
      { s with
        w := schedule (chunk s.p s.j)
        h := compress s.h (schedule (chunk s.p s.j))
        v := roundsUpTo (loadWorking s.h) (schedule (chunk s.p s.j)) 64
        t := 64
        j := s.j + 1 } := by
  rw [blockStep, compressBlock_eq]

/-! ## The engine's registers -/

/-- With one block more folded into H, and j one higher, the invariant holds again, whatever W, a..h and t are. The new
H is a variable of the lemma: with Compress in its place, the kernel would compare states by running its 64 rounds. -/
theorem inv_nextBlock {s : State} {h : Words8} (w : Vector Word 64) (v : Working) (t : Nat) (hs : Inv s)
    (hp : s.phase = .processing) (hj : s.j < s.n) (hfold : h = hashBlocks s.p (s.j + 1)) :
    Inv { s with h := h, w := w, v := v, t := t, j := s.j + 1 } :=
  have hb := hs.busy hp
  { hs with
    buffer := { hs.buffer with }
    idle := fun hi => by simp [hp] at hi
    busy := fun _ =>
      { hb with
        padded := hb.padded.trans (congrArg pad (message_congr rfl rfl rfl))
        index := hj
        folded := hfold } }

/-- A block step keeps the invariant: Compress folds block j into H. -/
theorem blockStep_inv {s : State} (hs : Inv s) (hp : s.phase = .processing) (hj : s.j < s.n) :
    Inv (blockStep s) := by
  rw [blockStep_eq]
  refine inv_nextBlock _ _ _ hs hp hj ?_
  rw [(hs.busy hp).folded, hashBlocks]

/-- Finalize keeps the invariant: ERR is one that a HASH in progress allows. -/
theorem finalize_inv {s : State} (hs : Inv s) (hp : s.phase = .processing) : Inv (finalize s) :=
  { hs with
    buffer := { hs.buffer with }
    idle := fun _ => rfl
    busy := nofun
    doneClean := fun _ => (hs.busy hp).errCode }

/-- A turn of the sequencer keeps the invariant. -/
theorem sequencerTurn_inv {s t : State} (hs : Inv s) (h : sequencerTurn s = .next t) : Inv t := by
  rcases sequencerTurn_cases h with ⟨-, rfl⟩ | ⟨hp, hj, rfl⟩ | ⟨hp, -, rfl⟩
  · exact hs
  · exact blockStep_inv hs hp hj
  · exact finalize_inv hs hp

/-- Raising an error keeps the invariant, where the error raised while busy is one that a HASH in progress allows. -/
theorem raiseError_inv {s : State} {code : ErrCode} (hs : Inv s)
    (hcode : s.phase = .processing → code = .cmdWhileBusy ∨ code = .writeWhileBusy) : Inv (raiseError code s) :=
  { hs with
    buffer := { hs.buffer with }
    busy := fun hp =>
      { hs.busy hp with
        notDone := rfl
        errCode := .inr (hcode hp)
        padded := (hs.busy hp).padded.trans (congrArg pad (message_congr rfl rfl rfl)) }
    doneClean := nofun }

/-- Raising any error in an Idle CORE keeps the invariant. -/
theorem raiseError_inv_idle {s : State} (code : ErrCode) (hs : Inv s) (hp : s.phase = .idle) :
    Inv (raiseError code s) :=
  raiseError_inv hs fun h => by simp [hp] at h

/-- A HASH accepted by a CORE whose buffer is no larger than the largest keeps PAD_LEN exact: the padded length fits its
32 bits. -/
theorem acceptHash_padLen {s : State} (hcap : s.msgCap.toNat ≤ Config.msgBufBytesMax)
    (hlen : s.msgLen.toNat ≤ s.msgCap.toNat) :
    (acceptHash s).padLen.toNat = paddedLength s.msgLen.toNat := by
  have hle : paddedLength s.msgLen.toNat ≤ paddedLength 4096 := paddedLength_mono (hlen.trans hcap)
  have hmax : paddedLength 4096 = 4160 := rfl
  show (BitVec.ofNat 32 (pad (message s)).length).toNat = _
  rw [pad_message_length, BitVec.toNat_ofNat, Nat.mod_eq_of_lt (by omega)]

/-- PAD_LEN is legal where it is the padded length of a message that fits the buffer (10_state.md R33). -/
theorem padLenLegal_of_eq {s : State} {len : Nat} (hlen : len ≤ s.msgCap.toNat)
    (h : s.padLen.toNat = paddedLength len) : PadLenLegal s := by
  right
  rw [h]
  exact ⟨by rw [paddedLength]; omega, by rw [paddedLength]; omega, paddedLength_mono hlen⟩

/-- An accepted HASH keeps the invariant: no block is done yet, and H = IV is the fold of no blocks. -/
theorem acceptHash_inv {s : State} (hs : Inv s) (hp : s.phase = .idle) (hlen : s.msgLen.toNat ≤ s.msgCap.toNat) :
    Inv (acceptHash s) :=
  have hpad := acceptHash_padLen hs.capacity hlen
  { hs with
    buffer := { hs.buffer with }
    padLen := padLenLegal_of_eq hlen hpad
    idle := nofun
    busy := fun _ =>
      { notDone := rfl
        errCode := .inl rfl
        lengthKept := rfl
        lengthFits := hlen
        padded := congrArg pad (message_congr rfl rfl rfl)
        blocks := congrArg (· / 64) (pad_message_length s)
        padLen := hpad
        index := Nat.zero_le _
        folded := hs.idle hp }
    doneClean := nofun }

/-- INIT in an Idle CORE keeps the invariant. -/
theorem initIdle_inv {s : State} (hs : Inv s) (hp : s.phase = .idle) : Inv (initIdle s) :=
  { hs with
    buffer := { hs.buffer with }
    padLen := .inl rfl
    idle := fun _ => rfl
    busy := fun h => by simp [initIdle, hp] at h
    doneClean := nofun }

/-- Every command keeps the invariant. -/
theorem exec_inv {i : Instr} {s t : State} (hs : Inv s) (h : exec i s = .next t) : Inv t := by
  rcases exec_cases h with ⟨-, rfl⟩ | ⟨-, -, rfl⟩ | ⟨hp, -, rfl⟩ | ⟨hp, -, -, rfl⟩ | ⟨hp, -, hlen, rfl⟩
  · exact raiseError_inv hs fun _ => .inl rfl
  · exact hs
  · exact initIdle_inv hs hp
  · exact raiseError_inv_idle _ hs hp
  · exact acceptHash_inv hs hp hlen

/-! ## The host's writes -/

/-- Any word written to CMD keeps the invariant. -/
theorem writeCmd_inv {w : Word} {s t : State} (hs : Inv s) (h : writeCmd w s = .next t) : Inv t := by
  rcases writeCmd_cases h with ⟨-, rfl⟩ | ⟨hp, -, rfl⟩ | ⟨-, i, -, he⟩
  · exact raiseError_inv hs fun _ => .inl rfl
  · exact raiseError_inv_idle _ hs hp
  · exact exec_inv hs he

/-- A write to MSG_LEN keeps the invariant: an Idle CORE may hold any length. -/
theorem writeMsgLen_inv {s : State} (data : Word) (hs : Inv s) : Inv (writeMsgLen data s) := by
  cases hp : s.phase with
  | processing => rw [writeMsgLen_busy data hp]; exact raiseError_inv hs fun _ => .inr rfl
  | idle =>
    rw [writeMsgLen_idle data hp]
    exact { hs with buffer := { hs.buffer with }, busy := fun h => by simp [hp] at h }

/-- An admitted write keeps every cell of MSG_BUF inside it and the cells in canonical form. -/
theorem writeLanes_bufferInv {s : State} {off : Nat} {size : BusSize} (data : Word) (hs : BufferInv s)
    (hlo : msgBufBase ≤ off) (hhi : off + sizeBytes size ≤ msgBufBase + s.msgCap.toNat) :
    BufferInv { s with mem := writeLanes s.mem off data (sizeBytes size) } where
  wf := writeLanes_wf _ _ _ hs.wf
  inside c hc := by
    rcases mem_writeLanes hc with hold | ⟨h1, h2⟩
    · exact hs.inside c hold
    · exact ⟨hlo.trans h1, h2.trans_le hhi⟩

/-- An admitted write to MSG_BUF keeps the invariant. -/
theorem writeMsgBuf_inv {s : State} {off : Nat} {size : BusSize} (data : Word) (hs : Inv s)
    (hlo : msgBufBase ≤ off) (hhi : off + sizeBytes size ≤ msgBufBase + s.msgCap.toNat) :
    Inv (writeMsgBuf off size data s) := by
  cases hp : s.phase with
  | processing => rw [writeMsgBuf_busy _ _ _ hp]; exact raiseError_inv hs fun _ => .inr rfl
  | idle =>
    rw [writeMsgBuf_idle _ _ _ hp]
    exact
      { hs with
        buffer := writeLanes_bufferInv data hs.buffer hlo hhi
        busy := fun h => by simp [hp] at h }

/-! ## The agents -/

/-- The invariant does not speak of the agents' lists and answers, and the count of draws may grow. -/
theorem inv_withAgents {s : State} (hs : Inv s) (program : List HostOp) (turns : List Turn)
    (responses : List Response) {draws : Nat} (hd : s.draws ≤ draws) :
    Inv { s with program := program, turns := turns, responses := responses, draws := draws } :=
  { hs with
    buffer := { hs.buffer with }
    busy := fun hp => { hs.busy hp with padded := (hs.busy hp).padded.trans (congrArg pad (message_congr rfl rfl rfl)) }
    drawn := hs.drawn.trans hd }

/-- Taking a turn keeps the invariant. -/
theorem popTurn_inv {s : State} (hs : Inv s) : Inv (popTurn s) := inv_withAgents hs _ _ _ le_rfl

/-- Taking an operation off the program keeps the invariant. -/
theorem popOp_inv {s : State} (hs : Inv s) : Inv (popOp s) := inv_withAgents hs _ _ _ le_rfl

/-- Answering a transaction keeps the invariant. -/
theorem respond_inv {s : State} (resp : Resp) (data : Word) (hs : Inv s) : Inv (respond resp data s) :=
  inv_withAgents hs _ _ _ le_rfl

/-- An admitted read keeps the invariant. -/
theorem performRead_inv {s : State} (r : Region) (off : Nat) (size : BusSize) (hs : Inv s) :
    Inv (performRead r off size s) := by
  rw [performRead, countDraw_eq]
  exact inv_withAgents hs _ _ _ (le_countDraw r s)

/-- Every transaction keeps the invariant. -/
theorem transact_inv {x : Txn} {s t : State} (hs : Inv s) (h : transact x s = .next t) : Inv t := by
  rcases transact_cases h with ⟨-, rfl⟩ | ⟨r, off, size, -, -, rfl⟩ |
    ⟨off, size, data, u, rfl, rfl, ⟨-, hu⟩ | ⟨-, rfl⟩ | ⟨ha, rfl⟩⟩
  · exact respond_inv _ _ hs
  · exact performRead_inv _ _ _ hs
  · exact respond_inv _ _ (writeCmd_inv hs hu)
  · exact respond_inv _ _ (writeMsgLen_inv data hs)
  · obtain ⟨hlo, hhi⟩ := admission_msgBuf ha
    exact respond_inv _ _ (writeMsgBuf_inv data hs hlo hhi)

/-- A turn of the host keeps the invariant. -/
theorem hostTurn_inv {s t : State} (hs : Inv s) (h : hostTurn s = .next t) : Inv t := by
  rcases hostTurn_cases h with ⟨-, rfl⟩ | ⟨x, rest, -, ht⟩ | ⟨rest, -, rfl | rfl⟩
  · exact hs
  · exact transact_inv (popOp_inv hs) ht
  · exact performRead_inv _ _ _ hs
  · exact popOp_inv (performRead_inv _ _ _ hs)

/-- A reset leads to a state that meets the invariant: MSG_BUF is kept, and the rest takes its reset value. -/
theorem hardwareReset_inv {s : State} (hs : Inv s) : Inv (hardwareReset s) :=
  { hs with
    buffer := { hs.buffer with }
    padLen := .inl rfl
    idle := fun _ => rfl
    busy := nofun
    doneClean := nofun
    drawn := hs.drawn.trans (Nat.le_succ _) }

/-- A power-up leads to a state that meets the invariant: it is a reset that leaves no cell written. -/
theorem powerUp_inv {s : State} (hs : Inv s) : Inv (powerUp s) :=
  { hardwareReset_inv hs with
    buffer := ⟨List.Pairwise.nil, nofun⟩
    busy := nofun
    drawn := le_rfl }

/-- Settles O52, by the kinds of turn. -/
theorem stepKeepsInv : Obligations.StepKeepsInv := by
  intro s t hs h
  have hs' := popTurn_inv hs
  rcases takeTurn_cases h with ⟨-, ht⟩ | ⟨-, ht⟩ | ⟨-, rfl⟩ | ⟨-, rfl⟩
  · exact hostTurn_inv hs' ht
  · exact sequencerTurn_inv hs' ht
  · exact hardwareReset_inv hs'
  · exact powerUp_inv hs'

end Sys2Proof.Machine
end

section
/-!
A HASH in progress is kept by every turn that is no reset (20_memory.md R66, 44_engine.md R181): one lemma says what a
transaction can change of a busy CORE, and the digest to come is read from registers outside it.
-/

namespace Sys2Proof.Machine

/-- A read changes at most the answers received and the count of draws (20_memory.md R55). -/
theorem performRead_frame (r : Region) (off : Nat) (size : BusSize) (s : State) :
    ∃ responses draws, performRead r off size s = { s with responses := responses, draws := draws } :=
  ⟨_, _, by rw [performRead, countDraw_eq]; rfl⟩

/-- A transaction changes at most ERR, DONE, the answers and the count of draws of a busy CORE: every write it admits is
dropped there (44_engine.md R181, 20_memory.md R57, R60). -/
theorem transact_busy_frame {x : Txn} {s t : State} (hp : s.phase = .processing) (h : transact x s = .next t) :
    ∃ err done responses draws,
      t = { s with err := err, done := done, responses := responses, draws := draws } := by
  rcases transact_cases h with ⟨-, rfl⟩ | ⟨r, off, size, -, -, rfl⟩ | ⟨off, size, data, u, -, rfl, hu⟩
  · exact ⟨_, _, _, _, rfl⟩
  · obtain ⟨responses, draws, he⟩ := performRead_frame r off.toNat size s
    exact ⟨_, _, responses, draws, he⟩
  · have hdropped : ∃ code, u = raiseError code s := by
      rcases hu with ⟨-, hu⟩ | ⟨-, rfl⟩ | ⟨-, rfl⟩
      · rw [writeCmd_busy data hp] at hu
        exact ⟨_, (Host.Outcome.next.inj hu).symm⟩
      · exact ⟨_, writeMsgLen_busy data hp⟩
      · exact ⟨_, writeMsgBuf_busy _ _ data hp⟩
    obtain ⟨code, rfl⟩ := hdropped
    exact ⟨_, _, _, _, rfl⟩

/-- A turn of the host changes at most ERR, DONE and the model's own fields of a busy CORE. -/
theorem hostTurn_busy_frame {s t : State} (hp : s.phase = .processing) (h : hostTurn s = .next t) :
    ∃ err done program responses draws,
      t = { s with err := err, done := done, program := program, responses := responses, draws := draws } := by
  rcases hostTurn_cases h with ⟨-, rfl⟩ | ⟨x, rest, -, ht⟩ | ⟨rest, -, ht⟩
  · exact ⟨_, _, _, _, _, rfl⟩
  · obtain ⟨err, done, responses, draws, rfl⟩ := transact_busy_frame (s := popOp s) hp ht
    exact ⟨_, _, _, _, _, rfl⟩
  · obtain ⟨responses, draws, he⟩ := performRead_frame .status 4 .four s
    rw [he] at ht
    rcases ht with rfl | rfl <;> exact ⟨_, _, _, _, _, rfl⟩

/-- The digest to come is the same where MSG_LEN and MSG_BUF are. -/
theorem promisedDigest_congr {s s' : State} (hm : s'.mem = s.mem) (hb : s'.bufDraw = s.bufDraw)
    (hl : s'.msgLen = s.msgLen) : promisedDigest s' = promisedDigest s :=
  congrArg hashWords (message_congr hm hb hl)

/-- Once every block is folded, H is the digest to come (44_engine.md R191). -/
theorem busyInv_h_eq_promisedDigest {s : State} (hb : BusyInv s) (hj : s.j = s.n) : s.h = promisedDigest s := by
  rw [hb.folded, hj, hb.blocks, hb.padded, promisedDigest, hashWords, message_length]

/-- Settles O56, by the kinds of turn. -/
theorem busyStepKeepsPromise : Obligations.BusyStepKeepsPromise := by
  intro s t hs hp hreset h
  rcases takeTurn_cases h with ⟨-, ht⟩ | ⟨-, ht⟩ | ⟨hn, -⟩ | ⟨hn, -⟩
  · obtain ⟨err, done, program, responses, draws, rfl⟩ := hostTurn_busy_frame (s := popTurn s) hp ht
    exact .inl ⟨hp, promisedDigest_congr rfl rfl rfl, rfl⟩
  · rcases sequencerTurn_cases ht with ⟨hi, -⟩ | ⟨-, -, rfl⟩ | ⟨-, hj, rfl⟩
    · rw [popTurn_phase, hp] at hi
      cases hi
    · obtain ⟨x, v, round, he⟩ := blockStep_shape (popTurn s)
      rw [he]
      exact .inl ⟨hp, promisedDigest_congr rfl rfl rfl, rfl⟩
    · exact .inr ⟨rfl, busyInv_h_eq_promisedDigest (hs.busy hp) hj, rfl, rfl⟩
  · exact absurd (.inl hn) hreset
  · exact absurd (.inr hn) hreset

end Sys2Proof.Machine
end

section
/-!
Which transactions are admitted (20_memory.md R53, R56): the rows of the address map cover each offset once, and what a
row takes decides.
-/

namespace Sys2Proof.Machine

/-- Two rows of the address map that share no offset. -/
def MapRow.Apart (a b : MapRow) : Prop := a.base + a.bytes ≤ b.base ∨ b.base + b.bytes ≤ a.base

/-- The rows of the address map do not overlap: they stand in rising order (20_memory.md R56). -/
theorem addressMap_apart (cap : Nat) : (addressMap cap).Pairwise MapRow.Apart := by
  have hrising : (addressMap cap).Pairwise (fun a b => a.base + a.bytes ≤ b.base) := by simp [addressMap, msgBufBase]
  exact hrising.imp .inl

/-- At most one row of the address map covers an offset. -/
theorem addressMap_cover_unique {cap off : Nat} {a b : MapRow} (ha : a ∈ addressMap cap) (hb : b ∈ addressMap cap)
    (hca : a.base ≤ off ∧ off < a.base + a.bytes) (hcb : b.base ≤ off ∧ off < b.base + b.bytes) : a = b := by
  have : Std.Symm MapRow.Apart := ⟨fun _ _ => Or.symm⟩
  by_contra hne
  have hapart := (addressMap_apart cap).forall ha hb hne
  rw [MapRow.Apart] at hapart
  omega

/-- The row of an offset is the one row of the address map that covers it. -/
theorem regionRow_of_covers {cap off : Nat} {row : MapRow} (hm : row ∈ addressMap cap)
    (hc : row.base ≤ off ∧ off < row.base + row.bytes) : regionRow cap off = some row := by
  cases h : regionRow cap off with
  | none => exact absurd (decide_eq_true hc) (List.find?_eq_none.mp h row hm)
  | some r =>
    obtain ⟨hr, hcr⟩ := regionRow_mem h
    rw [addressMap_cover_unique hr hm hcr hc]

/-- Offsets 0x80 to 0xBF are DIGEST_HEX. -/
theorem regionRow_digestHex (cap : Nat) {off : Nat} (hlo : 0x80 ≤ off) (hhi : off < 0xC0) :
    regionRow cap off = some ⟨.digestHex, 0x0080, 64, [.one, .two, .four], false⟩ :=
  regionRow_of_covers (by simp [addressMap]) ⟨hlo, hhi⟩

/-- Offsets from 0x1000 up to the buffer's end are MSG_BUF. -/
theorem regionRow_msgBuf {cap off : Nat} (hlo : 0x1000 ≤ off) (hhi : off < 0x1000 + cap) :
    regionRow cap off = some ⟨.msgBuf, msgBufBase, cap, [.one, .two, .four], true⟩ :=
  regionRow_of_covers (by simp [addressMap]) ⟨hlo, hhi⟩

/-- A transaction is admitted exactly when a row of the address map covers its offset and allows its size, alignment, end
and direction (20_memory.md R53). -/
theorem exists_admitted_iff {cap : Nat} {t : Txn} :
    (∃ r, admission cap t = .admitted r) ↔
      ∃ row, regionRow cap (txnOff t).toNat = some row ∧ txnSize t ∈ row.sizes ∧
        (txnOff t).toNat % sizeBytes (txnSize t) = 0 ∧
        (txnOff t).toNat + sizeBytes (txnSize t) ≤ row.base + row.bytes ∧
        (txnIsWrite t = true → row.writable = true) := by
  constructor
  · rintro ⟨r, h⟩
    obtain ⟨row, hrow, -, hchecks⟩ := admission_admitted h
    exact ⟨row, hrow, hchecks⟩
  · rintro ⟨row, hrow, hsize, halign, hend, hwrite⟩
    exact ⟨row.region, admission_of_row hrow hsize halign hend hwrite⟩

/-- The rows of the address map by what they take: the five registers from 0x00, the files H and DIGEST, DIGEST_HEX, and
MSG_BUF. -/
theorem regionRow_kinds {cap off : Nat} {row : MapRow} (h : regionRow cap off = some row) :
    (row.sizes = [.four] ∧ off < 0x14 ∧ (row.writable = true → off < 4 ∨ (8 ≤ off ∧ off < 12))) ∨
    (row.sizes = [.four] ∧ 0x40 ≤ off ∧ off < 0x80 ∧ row.writable = false) ∨
    (0x80 ≤ off ∧ row.base + row.bytes = 0xC0 ∧ row.writable = false) ∨
    (0x1000 ≤ off ∧ row.base + row.bytes = 0x1000 + cap) := by
  rcases regionRow_cases h with ⟨hhi, rfl⟩ | ⟨hlo, hhi, rfl⟩ | ⟨hlo, hhi, rfl⟩ | ⟨hlo, hhi, rfl⟩ | ⟨hlo, hhi, rfl⟩ |
    ⟨hlo, hhi, rfl⟩ | ⟨hlo, hhi, rfl⟩ | ⟨hlo, hhi, rfl⟩ | ⟨hlo, hhi, rfl⟩ <;> simp [msgBufBase] <;> omega

/-- An aligned 32-bit access lies at a multiple of 4. -/
theorem aligned_of_word {size : BusSize} {off : Nat} (hsize : size ∈ [BusSize.four])
    (halign : off % sizeBytes size = 0) : size = .four ∧ off % 4 = 0 := by
  obtain rfl := List.mem_singleton.mp hsize
  exact ⟨rfl, halign⟩

/-- An access has at least one byte. -/
theorem sizeBytes_pos (size : BusSize) : 0 < sizeBytes size := by cases size <;> decide

/-- A region of bytes takes every size. -/
theorem mem_byteSizes (size : BusSize) : size ∈ [BusSize.one, .two, .four] := by cases size <;> decide

/-- Settles O36: forwards by the kinds of rows of the address map, backwards by the row at the offset. -/
theorem admissionByOffset : Obligations.AdmissionByOffset := by
  intro cap t
  rw [exists_admitted_iff]
  generalize (txnOff t).toNat = off
  constructor
  · rintro ⟨row, hrow, hsize, halign, hend, hwrite⟩
    refine ⟨halign, ?_⟩
    rcases regionRow_kinds hrow with ⟨hs, hhi, hw⟩ | ⟨hs, hlo, hhi, hw⟩ | ⟨hlo, he, hw⟩ | ⟨hlo, he⟩
    · obtain ⟨hfour, hmod⟩ := aligned_of_word (hs ▸ hsize) halign
      exact .inl ⟨hfour, by omega, fun h => by have := hw (hwrite h); omega⟩
    · obtain ⟨hfour, hmod⟩ := aligned_of_word (hs ▸ hsize) halign
      exact .inr (.inl ⟨hfour, hlo, by omega, by simpa [hw] using hwrite⟩)
    · exact .inr (.inr (.inl ⟨hlo, he ▸ hend, by simpa [hw] using hwrite⟩))
    · exact .inr (.inr (.inr ⟨hlo, he ▸ hend⟩))
  · have hpos := sizeBytes_pos (txnSize t)
    rintro ⟨halign, ⟨hfour, hhi, hw⟩ | ⟨hfour, hlo, hhi, hw⟩ | ⟨hlo, hend, hw⟩ | ⟨hlo, hend⟩⟩
    · rw [hfour] at halign ⊢
      simp only [sizeBytes] at halign
      obtain rfl | rfl | rfl | rfl | rfl : off = 0 ∨ off = 4 ∨ off = 8 ∨ off = 12 ∨ off = 16 := by omega
      · exact ⟨_, rfl, by decide, halign, le_rfl, fun _ => rfl⟩
      · exact ⟨_, rfl, by decide, halign, le_rfl, by simpa using hw⟩
      · exact ⟨_, rfl, by decide, halign, le_rfl, fun _ => rfl⟩
      · exact ⟨_, rfl, by decide, halign, le_rfl, by simpa using hw⟩
      · exact ⟨_, rfl, by decide, halign, le_rfl, by simpa using hw⟩
    · rw [hfour] at halign ⊢
      simp only [sizeBytes] at halign ⊢
      rcases Nat.lt_or_ge off 0x60 with hlt | hge
      · exact ⟨⟨.h, 0x0040, 32, [.four], false⟩, regionRow_of_covers (by simp [addressMap]) ⟨hlo, hlt⟩, by decide,
          halign, (by omega : off + 4 ≤ 0x60), by simp [hw]⟩
      · exact ⟨⟨.digest, 0x0060, 32, [.four], false⟩, regionRow_of_covers (by simp [addressMap])
          ⟨hge, (by omega : off < 0x80)⟩, by decide, halign, (by omega : off + 4 ≤ 0x80), by simp [hw]⟩
    · exact ⟨_, regionRow_digestHex cap hlo (by omega), mem_byteSizes _, halign, hend, by simp [hw]⟩
    · exact ⟨_, regionRow_msgBuf hlo (by omega), mem_byteSizes _, halign, hend, fun _ => rfl⟩

end Sys2Proof.Machine
end

section
/-!
What a read returns and leaves unchanged (20_memory.md R54, R55, R58, R59, R63, R70), and what a write to MSG_BUF or
MSG_LEN changes (R57, R60).
-/

namespace Sys2Proof.Machine

/-! ## A transaction that is not admitted -/

/-- Settles O37, from the rejection's answer. -/
theorem rejectedTransactionChangesNothing : Obligations.RejectedTransactionChangesNothing := by
  intro t s hno
  cases h : admission s.msgCap.toNat t with
  | admitted r => exact absurd h (hno r)
  | rejected why => exact transact_rejected h

/-! ## The accesses that are admitted -/

/-- A number below 0x10000 is the number of the offset made from it. -/
theorem toNat_off {x : Nat} (h : x < 0x10000) : (BitVec.ofNat 16 x).toNat = x := by
  rw [BitVec.toNat_ofNat, Nat.mod_eq_of_lt h]

/-- A 32-bit read of DIGEST[i] is admitted. -/
theorem admission_readDigest (cap : Nat) {i : Nat} (hi : i < 8) :
    admission cap (.read (BitVec.ofNat 16 (0x0060 + 4 * i)) .four) = .admitted .digest := by
  interval_cases i <;> rfl

/-- A place aligned within a region is aligned on the bus, since every region begins at a multiple of 4
(20_memory.md R56). -/
theorem base_add_mod_sizeBytes {base i : Nat} (hb : base % 4 = 0) {size : BusSize} (hi : i % sizeBytes size = 0) :
    (base + i) % sizeBytes size = 0 := by
  rcases sizeBytes_cases size with ⟨-, hn⟩ | ⟨-, hn⟩ | ⟨-, hn⟩ <;> rw [hn] at hi ⊢ <;> omega

/-- An aligned read inside DIGEST_HEX is admitted. -/
theorem admission_readDigestHex (cap : Nat) {off : Off} {c : Nat} {size : BusSize} (hoff : off.toNat = 0x0080 + c)
    (hend : c + sizeBytes size ≤ 64) (halign : c % sizeBytes size = 0) :
    admission cap (.read off size) = .admitted .digestHex := by
  have hpos := sizeBytes_pos size
  have hrow := regionRow_digestHex cap (off := off.toNat) (by omega) (by omega)
  refine admission_of_row (t := .read off size) hrow (mem_byteSizes size) ?_ ?_ fun hw => by cases hw
  · rw [txnOff, hoff]; exact base_add_mod_sizeBytes rfl halign
  · rw [txnOff, hoff]; exact (by omega : 0x0080 + c + sizeBytes size ≤ 0x0080 + 64)

/-- An aligned access inside MSG_BUF is admitted. -/
theorem admission_msgBuf_access {cap i : Nat} {t : Txn} (hoff : (txnOff t).toNat = 0x1000 + i)
    (hend : i + sizeBytes (txnSize t) ≤ cap) (halign : i % sizeBytes (txnSize t) = 0) :
    admission cap t = .admitted .msgBuf := by
  have hpos := sizeBytes_pos (txnSize t)
  have hrow := regionRow_msgBuf (cap := cap) (off := (txnOff t).toNat) (by omega) (by omega)
  refine admission_of_row hrow (mem_byteSizes _) ?_ ?_ fun _ => rfl
  · rw [hoff]; exact base_add_mod_sizeBytes rfl halign
  · rw [hoff]; exact (by omega : 0x1000 + i + sizeBytes (txnSize t) ≤ 0x1000 + cap)

/-! ## Reads -/

/-- No read but one of H draws a free value (93_implementation_defined.md I5). -/
theorem countDraw_of_ne_h {r : Region} (hr : r ≠ .h) (s : State) : countDraw r s = s := by
  unfold countDraw
  split
  · exact absurd rfl hr
  · rfl

/-- No read of an Idle CORE draws a free value. -/
theorem countDraw_idle (r : Region) {s : State} (hp : s.phase = .idle) : countDraw r s = s := by
  unfold countDraw
  split
  · next hb => rw [hp] at hb; cases hb
  · rfl

/-- A read of H while busy draws a free value. -/
theorem performRead_h_busy (off : Nat) (size : BusSize) {s : State} (hp : s.phase = .processing) :
    performRead .h off size s = respond .okay (Config.hRead s.draws) { s with draws := s.draws + 1 } := by
  simp only [performRead, readData, countDraw, hp]

/-- A read of H[i] in an Idle CORE returns its value. -/
theorem readData_h_idle (i : Nat) (size : BusSize) {s : State} (hp : s.phase = .idle) :
    readData .h (0x0040 + 4 * i) size s = wordAt s.h i := by
  rw [readData]
  simp only [hp]
  congr 1
  omega

/-- A read of DIGEST[i] returns its value. -/
theorem readData_digest (i : Nat) (size : BusSize) (s : State) :
    readData .digest (0x0060 + 4 * i) size s = wordAt s.digest i := by
  rw [readData]
  congr 1
  omega

/-- An admitted read of any region but H answers its data and changes nothing. -/
theorem transact_read_of_ne_h {off : Off} {size : BusSize} {r : Region} {s : State}
    (h : admission s.msgCap.toNat (.read off size) = .admitted r) (hr : r ≠ .h) :
    transact (.read off size) s = .next (respond .okay (readData r off.toNat size s) s) := by
  rw [transact_read h, performRead, countDraw_of_ne_h hr]

/-- An admitted read in an Idle CORE answers its data and changes nothing. -/
theorem transact_read_idle {off : Off} {size : BusSize} {r : Region} {s : State}
    (h : admission s.msgCap.toNat (.read off size) = .admitted r) (hp : s.phase = .idle) :
    transact (.read off size) s = .next (respond .okay (readData r off.toNat size s) s) := by
  rw [transact_read h, performRead, countDraw_idle r hp]

/-- Settles O38, register by register. -/
theorem wordRegisterReads : Obligations.WordRegisterReads := by
  intro s
  refine ⟨rfl, rfl, rfl, rfl, rfl, fun i hi => ?_, fun hp i hi => ?_⟩
  · rw [transact_read_of_ne_h (admission_readDigest _ hi) nofun, toNat_off (by omega), readData_digest]
  · rw [transact_read_idle (admission_readH _ hi) hp, toNat_off (by omega), readData_h_idle i _ hp]

/-- What a read of a region but H and STATUS returns does not depend on whether a HASH is in progress. -/
theorem readData_withPhase {r : Region} (hh : r ≠ .h) (hs : r ≠ .status) (off : Nat) (size : BusSize) (s : State)
    (phase : Phase) : readData r off size { s with phase := phase } = readData r off size s := by
  cases r with
  | h => exact absurd rfl hh
  | status => exact absurd rfl hs
  | msgBuf => exact congrArg lanesOf (msgBufBytes_congr (s := s) (s' := { s with phase := phase }) rfl rfl _ _)
  | _ => rfl

/-- Settles O39, by the region read. -/
theorem readsWhileBusy : Obligations.ReadsWhileBusy := by
  intro s hp
  refine ⟨fun i hi => ?_, fun off size r ha hh hst => ?_, rfl⟩
  · rw [transact_read (admission_readH _ hi), performRead_h_busy _ _ hp]
    rfl
  · rw [transact_read_of_ne_h ha hh, readData_withPhase hh hst off.toNat size s .idle]

/-- What a read returns does not depend on the answers received. -/
theorem readData_withResponses (r : Region) (off : Nat) (size : BusSize) (s : State) (responses : List Response) :
    readData r off size { s with responses := responses } = readData r off size s := by
  cases r with
  | msgBuf => exact congrArg lanesOf (msgBufBytes_congr (s := s) (s' := { s with responses := responses }) rfl rfl _ _)
  | _ => rfl

/-- A read of an Idle CORE has one answer, whatever answers came before, and adds it to them alone. -/
theorem transact_read_idle_answer (off : Off) (size : BusSize) {s : State} (hp : s.phase = .idle) :
    ∃ answer, ∀ responses, transact (.read off size) { s with responses := responses } =
      .next { s with responses := answer :: responses } := by
  cases h : admission s.msgCap.toNat (.read off size) with
  | rejected why => exact ⟨⟨.error, 0⟩, fun responses => transact_rejected h⟩
  | admitted r =>
    refine ⟨⟨.okay, readData r off.toNat size s⟩, fun responses => ?_⟩
    rw [transact_read_idle (s := { s with responses := responses }) h hp, readData_withResponses]
    rfl

/-- Settles O40: a read's frame in any state, and its one answer in an Idle CORE. -/
theorem readsChangeNothing : Obligations.ReadsChangeNothing := by
  intro off size s t h
  constructor
  · rcases transact_cases h with ⟨-, rfl⟩ | ⟨r, off, size, -, -, rfl⟩ | ⟨off, size, data, u, hw, -⟩
    · rfl
    · obtain ⟨responses, draws, he⟩ := performRead_frame r off.toNat size s
      rw [he]
    · cases hw
  · intro hp
    obtain ⟨answer, hanswer⟩ := transact_read_idle_answer off size hp
    obtain rfl := Host.Outcome.next.inj (h.symm.trans (hanswer s.responses))
    exact ⟨rfl, answer, rfl, hanswer _⟩

/-- Bytes put in the lanes come back lane by lane, and the lanes above them are 0 (20_memory.md R52). -/
theorem laneByte_lanesOf_bytes {bs : List Byte} {count : Nat} {byteAt : Nat → Byte} (hlen : bs.length = count)
    (hget : ∀ x < count, bs.getD x 0 = byteAt x) {lane : Nat} (hl : lane < 4) :
    laneByte (lanesOf bs) lane = if lane < count then byteAt lane else 0 := by
  rw [laneByte_lanesOf bs lane hl]
  split
  · next hlt => exact hget lane hlt
  · next hge => exact List.getD_eq_default _ _ (by omega)

/-- Settles O41, from the bytes of the view and the lanes they fill. -/
theorem digestHexReadLanes : Obligations.DigestHexReadLanes := by
  intro c size s hend halign
  have hoff := toNat_off (x := 0x0080 + c) (by omega)
  refine ⟨_, transact_read_of_ne_h (admission_readDigestHex _ hoff hend halign) nofun, fun lane hl => ?_⟩
  rw [hoff, readData, Nat.add_sub_cancel_left]
  exact laneByte_lanesOf_bytes (digestHexBytes_length _ _ _) (fun x hx => digestHexBytes_getD _ _ _ x hx) hl

/-- Settles O42, from the bytes of the buffer and the lanes they fill. -/
theorem msgBufReadLanes : Obligations.MsgBufReadLanes := by
  intro i size s hcap hend halign
  have hoff := toNat_off (x := 0x1000 + i) (by omega)
  refine ⟨_, transact_read_of_ne_h (admission_msgBuf_access hoff hend halign) nofun, fun lane hl => ?_⟩
  rw [hoff, readData, msgBufBase, Nat.add_sub_cancel_left]
  exact laneByte_lanesOf_bytes (msgBufBytes_length _ _ _) (fun x hx => msgBufBytes_getD _ _ _ x hx) hl

/-! ## Writes -/

/-- The bytes of MSG_BUF after lanes are stored in it: the lanes in their place, every other byte as it read before. -/
theorem msgBufByte_writeLanes (s : State) (i x : Nat) (data : Word) (count : Nat) :
    msgBufByte { s with mem := writeLanes s.mem (msgBufBase + i) data count } x =
      if i ≤ x ∧ x < i + count then laneByte data (x - i) else msgBufByte s x := by
  rw [msgBufByte, read_writeLanes]
  by_cases h : i ≤ x ∧ x < i + count
  · rw [if_pos h, if_pos (by omega), Nat.add_sub_add_left, Option.getD_some]
  · rw [if_neg h, if_neg (by omega), msgBufByte]

/-- Settles O43: in an Idle CORE the lanes are stored, and while busy the write is dropped. -/
theorem msgBufWrite : Obligations.MsgBufWrite := by
  intro i size data s hcap hend halign
  have hoff := toNat_off (x := 0x1000 + i) (by omega)
  have hadm := admission_msgBuf_access (t := .write (BitVec.ofNat 16 (0x1000 + i)) size data) hoff hend halign
  rw [transact_write hadm, performWrite, mapNext_next, hoff]
  constructor
  · intro hp
    rw [writeMsgBuf_idle _ _ _ hp]
    exact ⟨_, rfl, rfl, fun x => msgBufByte_writeLanes s i x data (sizeBytes size)⟩
  · intro hp
    rw [writeMsgBuf_busy _ _ _ hp]
    rfl

/-- Settles O44: in an Idle CORE the word is stored, and while busy the write is dropped. -/
theorem msgLenWrite : Obligations.MsgLenWrite := by
  intro data s
  rw [transact_write (admission_writeMsgLen _ data), performWrite, mapNext_next]
  constructor
  · intro hp
    rw [writeMsgLen_idle data hp]
    exact ⟨_, rfl, rfl, rfl⟩
  · intro hp
    rw [writeMsgLen_busy data hp]
    rfl

end Sys2Proof.Machine
end

section
/-!
The decoder and the encoder agree (30_encoding.md R80-R85): a command decodes from its own word alone, and the lanes and
the table bits hold that word.
-/

namespace Sys2Proof.Machine

/-! ## Words -/

/-- A command is read back from its word. -/
@[simp] theorem decode_encode (i : Instr) : decode (encode i) = .cmd i := by cases i <;> rfl

/-- A command decodes from its own word alone (30_encoding.md R83). -/
theorem decode_eq_cmd_iff {w : Word} {i : Instr} : decode w = .cmd i ↔ w = encode i :=
  ⟨eq_encode_of_decode, fun h => by rw [h, decode_encode]⟩

/-- The words with RSVD not 0, whatever their OPC, are illegal for that reason, and no others (30_encoding.md R84). -/
theorem decode_eq_reservedBits_iff {w : Word} : decode w = .illegal .reservedBits ↔ rsvdField w ≠ 0 := by
  unfold decode
  split
  · next hr => exact iff_of_true rfl hr
  · next hr =>
    refine iff_of_false ?_ hr
    split_ifs <;> nofun

/-- An opcode is one of the three of the opcode map, or from 0x03 on (30_encoding.md R83). -/
theorem three_le_opcode_iff {o : BitVec 8} : 3 ≤ o.toNat ↔ o ≠ 0x00 ∧ o ≠ 0x01 ∧ o ≠ 0x02 := by
  simp only [ne_eq, ← BitVec.toNat_inj, BitVec.ofNat_eq_ofNat, BitVec.toNat_ofNat]
  omega

/-- The words with RSVD = 0 and OPC from 0x03 on are illegal for that reason, and no others are (30_encoding.md R84). -/
theorem decode_eq_undefinedOpcode_iff {w : Word} :
    decode w = .illegal .undefinedOpcode ↔ rsvdField w = 0 ∧ 3 ≤ (opcField w).toNat := by
  rw [three_le_opcode_iff]
  unfold decode
  split
  · next hr => exact iff_of_false nofun fun h => hr h.1
  next hr =>
  split_ifs with h0 h1 h2
  · exact iff_of_false nofun fun h => h.2.1 h0
  · exact iff_of_false nofun fun h => h.2.2.1 h1
  · exact iff_of_false nofun fun h => h.2.2.2 h2
  · exact iff_of_true rfl ⟨not_not.mp hr, h0, h1, h2⟩

/-- Settles O3, by the opcode map and the two kinds of illegal words. -/
theorem decodeIsTheOpcodeMap : Obligations.DecodeIsTheOpcodeMap := fun _ =>
  ⟨decode_eq_cmd_iff, decode_eq_cmd_iff, decode_eq_cmd_iff, decode_eq_reservedBits_iff,
    decode_eq_undefinedOpcode_iff⟩

/-- Settles O5: samples of the opcode map, of the illegal words, and of a number of bytes that is no word's. -/
theorem sampleWordsDecode : Obligations.SampleWordsDecode :=
  ⟨decode_encode .nop, decode_encode .hash, decode_encode .init, by decide, by decide, by decide, rfl⟩

/-! ## Lanes and table bits -/

/-- The lanes of a word make up the word (20_memory.md R52). -/
theorem wordOfLanes_laneByte (w : Word) :
    wordOfLanes (laneByte w 0) (laneByte w 1) (laneByte w 2) (laneByte w 3) = w := by
  simp only [wordOfLanes, laneByte]
  rw [BitVec.extractLsb'_append_extractLsb'_eq_extractLsb' (by omega),
    BitVec.extractLsb'_append_extractLsb'_eq_extractLsb' (by omega),
    BitVec.extractLsb'_append_extractLsb'_eq_extractLsb' (by omega)]
  exact BitVec.extractLsb'_eq_self

/-- The four bytes of a word, the low one first, are its lanes. -/
theorem bytesLE_eq_laneBytes (w : Word) :
    bytesLE 4 w.toNat = [laneByte w 0, laneByte w 1, laneByte w 2, laneByte w 3] := by
  simp [bytesLE, laneByte, BitVec.extractLsb', Nat.shiftRight_eq_div_pow, Nat.div_div_eq_div_mul]

/-- The decoder reads a word from its four bytes. -/
theorem decodeBytes_bytesLE (w : Word) : decodeBytes (bytesLE 4 w.toNat) = decode w :=
  (congrArg decodeBytes (bytesLE_eq_laneBytes w)).trans (congrArg decode (wordOfLanes_laneByte w))

/-- The decoder reads a word from its 32 table bits. -/
theorem decodeTableWord_toNat (w : Word) : decodeTableWord 32 w.toNat = (decode w).instr? := by
  rw [decodeTableWord, if_pos le_rfl, Nat.mod_eq_of_lt w.isLt, decodeBytes_bytesLE]

/-- Settles O4, since the bytes and the table bits of a word decode as the word does. -/
theorem decodeInvertsEncode : Obligations.DecodeInvertsEncode := fun i =>
  ⟨decode_encode i, by rw [decodeBytes_bytesLE, decode_encode], by rw [decodeTableWord_toNat, decode_encode]; rfl,
    fun _ => eq_encode_of_decode⟩

end Sys2Proof.Machine
end

section
/-!
A transaction is read back from its listing (30_encoding.md R87): a hexadecimal numeral has its value, the fields
come apart at the spaces, and the 4-tuple is well formed.
-/

namespace Sys2Proof.Machine

/-! ## Hexadecimal digits -/

/-- The character of one upper-case hexadecimal digit, as listings show it (log 19). -/
def upperHexDigit (d : Nat) : Char := Char.ofNat (if d < 10 then 0x30 + d else 0x41 + (d - 10))

/-- The digits of a number: those of its sixteenth, and then its last. -/
theorem hexDigits_succ (count n : Nat) :
    hexDigits (count + 1) n = hexDigits count (n / 16) ++ [upperHexDigit (n % 16)] := rfl

/-- A listing shows as many digits as its field is wide. -/
@[simp] theorem hexDigits_length (count n : Nat) : (hexDigits count n).length = count := by
  induction count generalizing n with
  | zero => rfl
  | succ count ih => rw [hexDigits_succ, List.length_append, ih, List.length_singleton]

/-- A digit has its value. -/
theorem digitValue_upperHexDigit : ∀ d < 16, digitValue 16 (upperHexDigit d) = some d := by decide

/-- A digit below ten has its value in decimal as well. -/
theorem decimalValue_upperHexDigit : ∀ d < 10, digitValue 10 (upperHexDigit d) = some d := by decide

/-- A character that separates two fields of a line: a space or a comma (log 19). -/
def Separates (c : Char) : Prop := c = ' ' ∨ c = ','

/-- No digit separates two fields. -/
theorem not_separates_upperHexDigit : ∀ d < 16, ¬ Separates (upperHexDigit d) := by
  unfold Separates
  decide

/-- No character of a numeral separates two fields. -/
theorem not_separates_of_mem_hexDigits {count n : Nat} {c : Char} (h : c ∈ hexDigits count n) : ¬ Separates c := by
  induction count generalizing n with
  | zero => cases h
  | succ count ih =>
    rw [hexDigits_succ, List.mem_append, List.mem_singleton] at h
    rcases h with h | rfl
    · exact ih h
    · exact not_separates_upperHexDigit _ (Nat.mod_lt _ (by omega))

/-- The value of digits followed by one digit more. -/
theorem digitsValue_concat {base acc v d : Nat} {cs : List Char} {c : Char} (hcs : digitsValue base acc cs = some v)
    (hc : digitValue base c = some d) : digitsValue base acc (cs ++ [c]) = some (v * base + d) := by
  induction cs generalizing acc with
  | nil =>
    obtain rfl := Option.some.inj hcs
    simp [digitsValue, hc]
  | cons a cs ih =>
    rw [digitsValue] at hcs
    rw [List.cons_append, digitsValue]
    split at hcs
    · next e he => simpa only [he] using ih hcs
    · cases hcs

/-- The digits of a number that fits them have its value. -/
theorem digitsValue_hexDigits {count n : Nat} (h : n < 16 ^ count) : digitsValue 16 0 (hexDigits count n) = some n := by
  induction count generalizing n with
  | zero =>
    obtain rfl : n = 0 := by simpa using h
    rfl
  | succ count ih =>
    have hhigh : n / 16 < 16 ^ count := by rw [Nat.pow_succ] at h; omega
    rw [hexDigits_succ, digitsValue_concat (ih hhigh) (digitValue_upperHexDigit _ (Nat.mod_lt _ (by omega))),
      Nat.div_add_mod']

/-! ## Fields -/

/-- A character that does not separate is taken up into the field being read. -/
theorem fieldsFrom_cons_of_not_separates {c : Char} (h : ¬ Separates c) (word cs : List Char) :
    fieldsFrom word (c :: cs) = fieldsFrom (word ++ [c]) cs := if_neg h

/-- The characters of a field are taken up one after another. -/
theorem fieldsFrom_append {field : List Char} (h : ∀ c ∈ field, ¬ Separates c) (word cs : List Char) :
    fieldsFrom word (field ++ cs) = fieldsFrom (word ++ field) cs := by
  induction field generalizing word with
  | nil => simp
  | cons c field ih =>
    rw [List.forall_mem_cons] at h
    rw [List.cons_append, fieldsFrom_cons_of_not_separates h.1, ih h.2, List.append_assoc, List.singleton_append]

/-- A field ends at a space. -/
theorem fieldsFrom_field_space {field : List Char} (h : ∀ c ∈ field, ¬ Separates c) (hne : field ≠ [])
    (cs : List Char) : fieldsFrom [] (field ++ ' ' :: cs) = field :: fieldsFrom [] cs := by
  rw [fieldsFrom_append h, List.nil_append, fieldsFrom, if_pos (.inl rfl), if_neg hne]

/-- The last field ends with the line. -/
theorem fieldsFrom_field_end {field : List Char} (h : ∀ c ∈ field, ¬ Separates c) (hne : field ≠ []) :
    fieldsFrom [] field = [field] := by
  simpa [fieldsFrom, hne] using fieldsFrom_append h [] []

/-! ## The 4-tuple -/

/-- The direction letter of a transaction in its listing (30_encoding.md R87). -/
def dirLetter (t : Txn) : Char := if txnIsWrite t then 'W' else 'R'

/-- The size digit of a transaction in its listing (30_encoding.md R87). -/
def sizeDigit (t : Txn) : Char := upperHexDigit (sizeBytes (txnSize t))

/-- An access has fewer than ten bytes: its size is one decimal digit. -/
theorem sizeBytes_lt_ten (size : BusSize) : sizeBytes size < 10 := by cases size <;> decide

/-- A listing: direction and size, the offset in four digits, the data in eight. -/
theorem listing_eq (t : Txn) :
    listing t = [dirLetter t, sizeDigit t] ++
      ' ' :: (hexDigits 4 (txnTuple t).off ++ ' ' :: hexDigits 8 (txnTuple t).data) := by
  have hmod : sizeBytes (txnSize t) % 16 = sizeBytes (txnSize t) :=
    Nat.mod_eq_of_lt ((sizeBytes_lt_ten _).trans (by omega))
  have hsize : hexDigits 1 (sizeBytes (txnSize t)) = [sizeDigit t] := by
    rw [hexDigits_succ, hmod]; rfl
  rw [listing, hsize, List.append_assoc]
  rfl

/-- The direction letter gives the direction. -/
theorem dirOfLetter_dirLetter (t : Txn) : dirOfLetter (dirLetter t) = some (txnTuple t).dir := by
  cases t <;> rfl

/-- The size digit gives the size. -/
theorem digitValue_sizeDigit (t : Txn) : digitValue 10 (sizeDigit t) = some (txnTuple t).size := by
  rw [sizeDigit, decimalValue_upperHexDigit _ (sizeBytes_lt_ten _)]
  cases t <;> rfl

/-- Neither the direction letter nor the size digit separates two fields. -/
theorem not_separates_of_mem_head {t : Txn} {c : Char} (h : c ∈ [dirLetter t, sizeDigit t]) : ¬ Separates c := by
  obtain rfl | rfl : c = dirLetter t ∨ c = sizeDigit t := by simpa using h
  · unfold dirLetter Separates
    split <;> decide
  · exact not_separates_upperHexDigit _ ((sizeBytes_lt_ten _).trans (by omega))

/-- The fields of a listing. -/
theorem fieldsFrom_listing (t : Txn) : fieldsFrom [] (listing t) =
    [[dirLetter t, sizeDigit t], hexDigits 4 (txnTuple t).off, hexDigits 8 (txnTuple t).data] := by
  have hne : ∀ count n, 0 < count → hexDigits count n ≠ [] := fun count n hc =>
    List.ne_nil_of_length_pos (by rwa [hexDigits_length])
  rw [listing_eq, fieldsFrom_field_space (fun _ => not_separates_of_mem_head) (List.cons_ne_nil _ _),
    fieldsFrom_field_space (fun _ => not_separates_of_mem_hexDigits) (hne 4 _ (by omega)),
    fieldsFrom_field_end (fun _ => not_separates_of_mem_hexDigits) (hne 8 _ (by omega))]

/-- The offset of a transaction fits four hexadecimal digits. -/
theorem txnTuple_off_lt (t : Txn) : (txnTuple t).off < 16 ^ 4 := by
  rcases t with ⟨off, size⟩ | ⟨off, size, data⟩ <;> exact off.isLt

/-- The data of a transaction fits eight hexadecimal digits. -/
theorem txnTuple_data_lt (t : Txn) : (txnTuple t).data < 16 ^ 8 := by
  rcases t with ⟨off, size⟩ | ⟨off, size, data⟩
  · exact Nat.pow_pos (by omega)
  · exact data.isLt

/-- The number of bytes of a size gives the size. -/
theorem sizeOfBytes_sizeBytes (size : BusSize) : sizeOfBytes (sizeBytes size) = some size := by cases size <;> rfl

/-- The 4-tuple of a transaction is well formed (30_encoding.md R87). -/
theorem wellFormed_txnTuple (t : Txn) : (txnTuple t).wellFormed = true := by
  have hoff : (txnTuple t).offOk = true := decide_eq_true (txnTuple_off_lt t)
  have hdata : (txnTuple t).dataOk = true := decide_eq_true (txnTuple_data_lt t)
  have hsize : (txnTuple t).sizeOk = true := by
    rcases t with ⟨off, size⟩ | ⟨off, size, data⟩ <;> cases size <;> rfl
  have hread : (txnTuple t).readDataOk = true := by cases t <;> rfl
  rw [RawTxn.wellFormed, hsize, hoff, hdata, hread]
  rfl

/-- A transaction is the one of its 4-tuple. -/
theorem txnOfTuple_txnTuple (t : Txn) : txnOfTuple (txnTuple t) = some t := by
  rw [txnOfTuple, if_pos (wellFormed_txnTuple t)]
  rcases t with ⟨off, size⟩ | ⟨off, size, data⟩ <;> simp [txnTuple, sizeOfBytes_sizeBytes]

/-- Settles O6: each field of the listing gives back its part of the 4-tuple. -/
theorem listingRoundTrip : Obligations.ListingRoundTrip := by
  intro t
  rw [readListing, fieldsFrom_listing]
  simp only [dirOfLetter_dirLetter, digitValue_sizeDigit, digitsValue_hexDigits (txnTuple_off_lt t),
    digitsValue_hexDigits (txnTuple_data_lt t), hexDigits_length, and_self, if_true]
  exact txnOfTuple_txnTuple t

end Sys2Proof.Machine
end

section
/-!
Host programs at work (30_encoding.md R88): a poll of `wait`, and the expansion of `msg`. Operations load bytes into
MSG_BUF whatever turns of the sequencer come between them, and those that load adjoining bytes load them together.
-/

namespace Sys2Proof.Machine

/-- Settles O58, since STATUS.BUSY is bit 0. -/
theorem waitPollsStatus : Obligations.WaitPollsStatus := by
  intro s rest hprog
  rw [hostTurn, hprog]
  simp only [pollStatus_eq, status_busy, decide_eq_true_eq]
  split
  · rw [← hprog]
    rfl
  · simp only [popOp, performRead, countDraw, respond, readData, hprog, List.tail_cons]

/-! ## Runs -/

/-- A run after a run is one run of their lengths together. -/
theorem run_add {M : Host.Core} {a b : Nat} {s t : M.State} (h : M.run a s = .next t) :
    M.run (a + b) s = M.run b t := by
  induction a generalizing s with
  | zero =>
    obtain rfl := Host.Outcome.next.inj h
    rw [Nat.zero_add]
  | succ a ih =>
    rw [Host.Core.run] at h
    rw [Nat.succ_add, Host.Core.run]
    split at h
    · exact ih h
    · cases h
    · cases h

/-- A run of one step. -/
theorem run_one {M : Host.Core} {s t : M.State} (h : M.step s = .next t) : M.run 1 s = .next t := by
  simp only [Host.Core.run, h]

/-- The machine leads from `s` to `t` in at most the turns to come and `extra` steps more, and each step takes one of
those turns until there are none. -/
def Advances (s : State) (extra : Nat) (t : State) : Prop :=
  ∃ count, count ≤ s.turns.length + extra ∧ Host.Core.run Sys2Proof.core count s = .next t ∧
    t.turns = s.turns.drop count

/-- A state leads to itself. -/
theorem advances_refl (s : State) (extra : Nat) : Advances s extra s := ⟨0, Nat.zero_le _, rfl, rfl⟩

/-- A step leads to the next state. -/
theorem advances_step {s t : State} {extra : Nat} (hcount : 1 ≤ s.turns.length + extra) (h : step s = .next t)
    (hturns : t.turns = s.turns.tail) : Advances s extra t :=
  ⟨1, hcount, run_one h, by rw [hturns, List.drop_one]⟩

/-- The steps more of two ways, one after the other, add up. -/
theorem Advances.trans {s t u : State} {a b : Nat} (hst : Advances s a t) (htu : Advances t b u) :
    Advances s (a + b) u := by
  obtain ⟨m, hm, hmrun, hmturns⟩ := hst
  obtain ⟨n, hn, hnrun, hnturns⟩ := htu
  rw [hmturns, List.length_drop] at hn
  refine ⟨m + n, by omega, ?_, by rw [hnturns, hmturns, List.drop_drop]⟩
  rw [run_add hmrun, hnrun]

/-- The turns left are among those that were to come, so no reset is among them where none was. -/
theorem Advances.noResetAhead {s t : State} {extra : Nat} (h : Advances s extra t)
    (hr : noResetAhead s = true) : noResetAhead t = true := by
  obtain ⟨count, -, -, hturns⟩ := h
  rw [Machine.noResetAhead, List.all_eq_true] at hr ⊢
  rw [hturns]
  exact fun turn hturn => hr turn (List.mem_of_mem_drop hturn)

/-! ## The host's next operation -/

/-- A turn of the sequencer passes an Idle CORE by (44_engine.md R185, R186). -/
theorem step_core_idle {s : State} (hp : s.phase = .idle) (hn : nextTurn s = .core) : step s = .next (popTurn s) := by
  rw [step, takeTurn, hn]
  simp only [sequencerTurn, popTurn_phase, hp]

/-- In an Idle CORE with no reset ahead the host's turn comes. -/
theorem exists_host_turn {s : State} (hp : s.phase = .idle) (hr : noResetAhead s = true) :
    ∃ turns, Advances s 0 { s with turns := turns } ∧ nextTurn { s with turns := turns } = .host := by
  induction hturns : s.turns generalizing s with
  | nil => exact ⟨s.turns, advances_refl s 0, by simp [nextTurn, hturns, hp]⟩
  | cons turn later ih =>
    have hturn : turn = .host ∨ turn = .core := by simp_all [noResetAhead]
    rcases hturn with rfl | rfl
    · exact ⟨s.turns, advances_refl s 0, by simp [nextTurn, hturns]⟩
    · have hpop : Advances s 0 (popTurn s) :=
        advances_step (by simp [hturns]) (step_core_idle hp (by simp [nextTurn, hturns])) rfl
      obtain ⟨turns, hadv, hn⟩ := ih (s := popTurn s) hp (hpop.noResetAhead hr) (by simp [hturns])
      exact ⟨turns, hpop.trans hadv, hn⟩

/-- In an Idle CORE with no reset ahead the host's next transaction takes effect, with one step more than the turns to
come. -/
theorem exists_advances_txn {s : State} {x : Txn} {rest : List HostOp} (hp : s.phase = .idle)
    (hr : noResetAhead s = true) (hprog : s.program = .txn x :: rest) :
    ∃ turns, ∀ t, transact x { s with program := rest, turns := turns } = .next t → t.turns = turns →
      Advances s 1 t := by
  obtain ⟨turns, hadv, hn⟩ := exists_host_turn hp hr
  refine ⟨turns.tail, fun t ht hturns => hadv.trans (advances_step (extra := 1) (by omega) ?_ hturns)⟩
  rw [step, takeTurn, hn]
  simp only [hostTurn, popTurn, popOp, hprog, List.tail_cons]
  exact ht

/-- An admitted write to MSG_BUF of an Idle CORE stores its lanes (20_memory.md R57). -/
theorem transact_writeMsgBuf_idle {off : Off} {size : BusSize} {data : Word} {s : State} (hp : s.phase = .idle)
    (h : admission s.msgCap.toNat (.write off size data) = .admitted .msgBuf) :
    transact (.write off size data) s =
      .next (respond .okay 0 { s with mem := writeLanes s.mem off.toNat data (sizeBytes size) }) := by
  rw [transact_write h, performWrite, writeMsgBuf_idle _ _ _ hp, mapNext_next]

/-- A 32-bit write to MSG_LEN of an Idle CORE stores its word (20_memory.md R60). -/
theorem transact_writeMsgLen_idle (data : Word) {s : State} (hp : s.phase = .idle) :
    transact (.write 0x0008 .four data) s = .next (respond .okay 0 { s with msgLen := data }) := by
  rw [transact_write (admission_writeMsgLen _ data), performWrite, writeMsgLen_idle data hp, mapNext_next]

/-! ## Loading bytes -/

/-- `t` is `s` with `bytes` in MSG_BUF from place `i` on: no other byte of the buffer and no register has changed. -/
def Fills (s : State) (i : Nat) (bytes : List Byte) (t : State) : Prop :=
  (∃ mem program turns responses,
    t = { s with mem := mem, program := program, turns := turns, responses := responses }) ∧
  ∀ x, msgBufByte t x = if i ≤ x ∧ x < i + bytes.length then bytes.getD (x - i) 0 else msgBufByte s x

/-- Filling bytes in does not change the phase. -/
theorem Fills.phase_eq {s t : State} {i : Nat} {bytes : List Byte} (h : Fills s i bytes t) : t.phase = s.phase := by
  obtain ⟨⟨_, _, _, _, rfl⟩, -⟩ := h
  rfl

/-- Filling bytes in does not change the size of the buffer. -/
theorem Fills.msgCap_eq {s t : State} {i : Nat} {bytes : List Byte} (h : Fills s i bytes t) :
    t.msgCap = s.msgCap := by
  obtain ⟨⟨_, _, _, _, rfl⟩, -⟩ := h
  rfl

/-- Adjoining bytes filled in one after another are filled in together. -/
theorem Fills.append {s t u : State} {i : Nat} {as bs : List Byte} (hst : Fills s i as t)
    (htu : Fills t (i + as.length) bs u) : Fills s i (as ++ bs) u := by
  obtain ⟨⟨_, _, _, _, rfl⟩, hst⟩ := hst
  obtain ⟨⟨_, _, _, _, rfl⟩, htu⟩ := htu
  refine ⟨⟨_, _, _, _, rfl⟩, fun x => ?_⟩
  rw [htu, hst, List.length_append]
  by_cases hb : i + as.length ≤ x ∧ x < i + as.length + bs.length
  · rw [if_pos hb, if_pos (by omega), List.getD_append_right _ _ _ _ (by omega), Nat.sub_add_eq]
  rw [if_neg hb]
  by_cases ha : i ≤ x ∧ x < i + as.length
  · rw [if_pos ha, if_pos (by omega), List.getD_append _ _ _ _ (by omega)]
  · rw [if_neg ha, if_neg (by omega)]

/-- The operations `ops`, next in the program of an Idle CORE with no reset ahead, fill `bytes` into MSG_BUF from place
`i` on, where they fit. -/
def LoadsAt (i : Nat) (bytes : List Byte) (ops : List HostOp) : Prop :=
  ∀ (s : State) (rest : List HostOp), s.phase = .idle → noResetAhead s = true →
    s.msgCap.toNat ≤ Config.msgBufBytesMax → i + bytes.length ≤ s.msgCap.toNat → s.program = ops ++ rest →
    ∃ t, Advances s ops.length t ∧ t.program = rest ∧ Fills s i bytes t

/-- No operation loads no byte. -/
theorem loadsAt_nil (i : Nat) : LoadsAt i [] [] := by
  intro s rest _ _ _ _ hprog
  refine ⟨s, advances_refl s _, hprog, ⟨_, _, _, _, rfl⟩, fun x => ?_⟩
  rw [if_neg (by simp)]

/-- Operations that load adjoining bytes load them together. -/
theorem LoadsAt.append {i : Nat} {as bs : List Byte} {xs ys : List HostOp} (ha : LoadsAt i as xs)
    (hb : LoadsAt (i + as.length) bs ys) : LoadsAt i (as ++ bs) (xs ++ ys) := by
  intro s rest hp hr hmax hfit hprog
  rw [List.length_append] at hfit ⊢
  rw [List.append_assoc] at hprog
  obtain ⟨t, hst, htprog, hfill⟩ := ha s (ys ++ rest) hp hr hmax (by omega) hprog
  obtain ⟨u, htu, huprog, hfill'⟩ := hb t rest (hfill.phase_eq.trans hp) (hst.noResetAhead hr)
    (by rwa [hfill.msgCap_eq]) (by rwa [hfill.msgCap_eq, Nat.add_assoc]) htprog
  exact ⟨u, hst.trans htu, huprog, hfill.append hfill'⟩

/-- An access has at most four bytes. -/
theorem sizeBytes_le_four (size : BusSize) : sizeBytes size ≤ 4 := by cases size <;> decide

/-- The bytes of MSG_BUF after bytes put in the lanes are stored in it: those bytes in their place, every other byte as
it read before. -/
theorem msgBufByte_writeLanes_lanesOf (s : State) (i x : Nat) {bytes : List Byte} (hlen : bytes.length ≤ 4) :
    msgBufByte { s with mem := writeLanes s.mem (msgBufBase + i) (lanesOf bytes) bytes.length } x =
      if i ≤ x ∧ x < i + bytes.length then bytes.getD (x - i) 0 else msgBufByte s x := by
  rw [msgBufByte_writeLanes]
  exact ite_congr rfl (fun hx => laneByte_lanesOf bytes _ (by omega)) fun _ => rfl

/-- An aligned write to MSG_BUF loads the bytes in its lanes (20_memory.md R57). -/
theorem loadsAt_write {off i : Nat} {size : BusSize} {bytes : List Byte} (hoff : off = msgBufBase + i)
    (hlen : bytes.length = sizeBytes size) (halign : i % sizeBytes size = 0) :
    LoadsAt i bytes [.txn (.write (BitVec.ofNat 16 off) size (lanesOf bytes))] := by
  intro s rest hp hr hmax hfit hprog
  have hfit' : i + sizeBytes size ≤ s.msgCap.toNat := hlen ▸ hfit
  have hpos := sizeBytes_pos size
  have hnum : (BitVec.ofNat 16 off).toNat = msgBufBase + i := by
    simp only [Config.msgBufBytesMax] at hmax
    rw [hoff, toNat_off (by simp only [msgBufBase]; omega)]
  have hadm := admission_msgBuf_access (t := .write (BitVec.ofNat 16 off) size (lanesOf bytes)) hnum hfit' halign
  obtain ⟨turns, hadv⟩ := exists_advances_txn hp hr hprog
  refine ⟨_, hadv _ (transact_writeMsgBuf_idle hp hadm) rfl, rfl, ⟨_, _, _, _, rfl⟩, fun x => ?_⟩
  rw [hnum, ← hlen]
  exact msgBufByte_writeLanes_lanesOf s i x (hlen ▸ sizeBytes_le_four size)

/-- A byte write to MSG_BUF loads its byte. -/
theorem loadsAt_byte {off i : Nat} (b : Byte) (hoff : off = msgBufBase + i) :
    LoadsAt i [b] [.txn (.write (BitVec.ofNat 16 off) .one (lanesOf [b]))] :=
  loadsAt_write hoff rfl (Nat.mod_one i)

/-- The writes of `msg` load its bytes: words while four are left, and then the tail byte by byte. -/
theorem loadsAt_msgOps {off i : Nat} (bytes : List Byte) (hoff : off = msgBufBase + i) (halign : i % 4 = 0) :
    LoadsAt i bytes (msgOps off bytes) := by
  fun_induction msgOps off bytes generalizing i with
  | case1 off b0 b1 b2 b3 rest ih =>
    exact (loadsAt_write (size := .four) (bytes := [b0, b1, b2, b3]) hoff rfl halign).append
      (ih (by simp; omega) (by simp; omega))
  | case2 off b0 b1 b2 =>
    exact (loadsAt_byte b0 hoff).append ((loadsAt_byte b1 (by simp; omega)).append (loadsAt_byte b2 (by simp; omega)))
  | case3 off b0 b1 => exact (loadsAt_byte b0 hoff).append (loadsAt_byte b1 (by simp; omega))
  | case4 off b0 => exact loadsAt_byte b0 hoff
  | case5 off => exact loadsAt_nil i

/-! ## The expansion of msg -/

/-- The message is `bytes` where MSG_LEN is their number and MSG_BUF holds them from byte 0 on. -/
theorem message_eq {s : State} {bytes : List Byte} (hlen : s.msgLen.toNat = bytes.length)
    (hbytes : ∀ x < bytes.length, msgBufByte s x = bytes.getD x 0) : message s = bytes := by
  refine List.ext_getElem (by rw [message_length, hlen]) fun x hx hx' => ?_
  rw [message_length] at hx
  rw [← List.getD_eq_getElem _ 0, ← List.getD_eq_getElem _ 0, message, msgBufBytes_getD _ _ _ _ hx, Nat.zero_add,
    hbytes x hx']

/-- Settles O59: the writes load the bytes, and then MSG_LEN takes their number. -/
theorem msgExpansionLoadsMessage : Obligations.MsgExpansionLoadsMessage := by
  intro bytes s rest hp hr hmax hfit hprog
  have hops : (expandPseudo (.msg bytes)).length = (msgOps msgBufBase bytes).length + 1 := List.length_append
  rw [expandPseudo, msgExpansion, List.append_assoc] at hprog
  obtain ⟨t, hst, htprog, hfill⟩ :=
    loadsAt_msgOps (i := 0) bytes rfl rfl s _ hp hr hmax (by rwa [Nat.zero_add]) hprog
  have htp := hfill.phase_eq.trans hp
  obtain ⟨turns, hadv⟩ := exists_advances_txn htp (hst.noResetAhead hr) htprog
  have hlen := transact_writeMsgLen_idle (BitVec.ofNat 32 bytes.length)
    (s := { t with program := rest, turns := turns }) htp
  obtain ⟨count, hcount, hrun, hturns⟩ := hst.trans (hadv _ hlen rfl)
  obtain ⟨⟨_, _, _, _, rfl⟩, hbytes⟩ := hfill
  refine ⟨count, _, hops ▸ hcount, hrun, message_eq ?_ fun x hx => ?_, ?_, fun x hx => ?_⟩
  · have hmax' : s.msgCap.toNat ≤ 4096 := hmax
    exact BitVec.toNat_ofNat .. |>.trans (Nat.mod_eq_of_lt (by omega))
  · exact (hbytes x).trans (if_pos ⟨Nat.zero_le x, by omega⟩)
  · rw [← hturns]
    rfl
  · exact (hbytes x).trans (if_neg (by omega))

end Sys2Proof.Machine
end

section
/-!
The datapath (40_arith.md R100 to R110): ModularAdd is determined by the natural number its sum is, and each bitwise
function by its bits.
-/

namespace Sys2Proof.Machine

/-! ## The Modular Adder -/

/-- The wide accumulator of ModularAdd ends at the plain sum (40_arith.md R100). -/
theorem foldl_add_toNat (a : Nat) (vs : List Word) :
    vs.foldl (fun acc x => acc + x.toNat) a = a + (vs.map BitVec.toNat).sum := by
  induction vs generalizing a with
  | nil => rfl
  | cons x vs ih => rw [List.foldl_cons, ih, List.map_cons, List.sum_cons, Nat.add_assoc]

theorem modularAdd_toNat (v : Word) (vs : List Word) :
    (modularAdd v vs).toNat = (v.toNat + (vs.map BitVec.toNat).sum) % 2 ^ 32 := by
  rw [modularAdd, BitVec.toNat_ofNat, foldl_add_toNat]

/-- ModularAdd sees its operands only through the sum of the whole list. -/
theorem modularAdd_congr {v w : Word} {vs ws : List Word}
    (h : ((v :: vs).map BitVec.toNat).sum % 2 ^ 32 = ((w :: ws).map BitVec.toNat).sum % 2 ^ 32) :
    modularAdd v vs = modularAdd w ws := by
  simp only [List.map_cons, List.sum_cons] at h
  exact BitVec.eq_of_toNat_eq (by rw [modularAdd_toNat, modularAdd_toNat, h])

theorem modularAdd_nil (v : Word) : modularAdd v [] = v := by
  rw [modularAdd, List.foldl_nil, BitVec.ofNat_toNat, BitVec.setWidth_eq]

/-- The first addition may be truncated at once: the next ones do not see the discarded carry. -/
theorem modularAdd_cons (v x : Word) (vs : List Word) :
    modularAdd v (x :: vs) = modularAdd (modularAdd v [x]) vs :=
  modularAdd_congr (by simp [modularAdd_toNat, Nat.add_assoc])

/-- Settles O23: the wide sum, truncated once. -/
theorem modularAddIsTheSum : Obligations.ModularAddIsTheSum :=
  ⟨fun v vs => ⟨modularAdd_toNat v vs, rfl⟩, modularAdd_nil, rfl⟩

theorem modularAdd_eq_foldl (v : Word) (vs : List Word) :
    modularAdd v vs = vs.foldl (fun acc x => modularAdd acc [x]) v := by
  induction vs generalizing v with
  | nil => exact modularAdd_nil v
  | cons x vs ih => rw [modularAdd_cons, ih, List.foldl_cons]

theorem modularAddChecked_perm {xs ys : List Word} (h : xs.Perm ys) :
    modularAddChecked xs = modularAddChecked ys := by
  match xs, ys with
  | [], [] => rfl
  | [], _ :: _ => cases h.nil_eq
  | _ :: _, [] => cases h.eq_nil
  | _ :: _, _ :: _ => exact congrArg Except.ok (modularAdd_congr (congrArg (· % 2 ^ 32) (h.map _).sum_eq))

/-- Settles O24: truncation of each addition by induction on the operands, the order by the sum of a permutation. -/
theorem modularAddLaws : Obligations.ModularAddLaws :=
  ⟨modularAdd_eq_foldl, fun _ _ => modularAddChecked_perm⟩

/-! ## The bitwise functions -/

/-- A bit comes from the right shift where `i + n` stays inside the word, and from the left shift where it wraps. -/
theorem rotr_getLsbD (x : Word) {n i : Nat} (hn : n ≤ 31) (hi : i < 32) :
    (rotr x n).getLsbD i = x.getLsbD ((i + n) % 32) := by
  rw [rotr, BitVec.getLsbD_or, BitVec.getLsbD_ushiftRight, BitVec.getLsbD_shiftLeft, Nat.add_comm n i]
  by_cases hwrap : i + n < 32
  · have hlow : i < 32 - n := by omega
    simp [Nat.mod_eq_of_lt hwrap, hlow]
  · have hhigh : ¬ i < 32 - n := by omega
    have hmod : (i + n) % 32 = i - (32 - n) := by omega
    simp [BitVec.getLsbD_of_ge x (i + n) (by omega), hi, hhigh, hmod]

/-- Settles O25, without the lower bound on the count: ROTR(x, 0) = x moves no bit. -/
theorem rotationMovesBits : Obligations.RotationMovesBits :=
  fun x _ _ _ hn hi => rotr_getLsbD x hn hi

theorem shr_getLsbD (x : Word) (n i : Nat) :
    (shr x n).getLsbD i = (decide (i + n < 32) && x.getLsbD (i + n)) := by
  rw [shr, BitVec.getLsbD_ushiftRight, Nat.add_comm n i]
  by_cases hin : i + n < 32
  · simp [hin]
  · simp [hin, BitVec.getLsbD_of_ge x (i + n) (by omega)]

/-- The bits of σ0 and σ1: two rotations and a shift (40_arith.md R105, R106). -/
theorem rotr_xor_rotr_xor_shr_getLsbD (x : Word) {a b c i : Nat} (ha : a ≤ 31) (hb : b ≤ 31) (hi : i < 32) :
    (rotr x a ^^^ rotr x b ^^^ shr x c).getLsbD i =
      (x.getLsbD ((i + a) % 32) ^^ x.getLsbD ((i + b) % 32) ^^ (decide (i + c < 32) && x.getLsbD (i + c))) := by
  rw [BitVec.getLsbD_xor, BitVec.getLsbD_xor, rotr_getLsbD x ha hi, rotr_getLsbD x hb hi, shr_getLsbD]

/-- The bits of Σ0 and Σ1: three rotations (40_arith.md R107, R108). -/
theorem rotr_xor_rotr_xor_rotr_getLsbD (x : Word) {a b c i : Nat} (ha : a ≤ 31) (hb : b ≤ 31) (hc : c ≤ 31)
    (hi : i < 32) :
    (rotr x a ^^^ rotr x b ^^^ rotr x c).getLsbD i =
      (x.getLsbD ((i + a) % 32) ^^ x.getLsbD ((i + b) % 32) ^^ x.getLsbD ((i + c) % 32)) := by
  rw [BitVec.getLsbD_xor, BitVec.getLsbD_xor, rotr_getLsbD x ha hi, rotr_getLsbD x hb hi, rotr_getLsbD x hc hi]

theorem ch_getLsbD (e f g : Word) {i : Nat} (hi : i < 32) :
    (ch e f g).getLsbD i = (if e.getLsbD i then f.getLsbD i else g.getLsbD i) := by
  rw [ch, BitVec.getLsbD_xor, BitVec.getLsbD_and, BitVec.getLsbD_and, BitVec.getLsbD_not, decide_eq_true hi]
  cases e.getLsbD i <;> simp

theorem maj_getLsbD (a b c : Word) (i : Nat) :
    (maj a b c).getLsbD i = true ↔ 2 ≤ (a.getLsbD i).toNat + (b.getLsbD i).toNat + (c.getLsbD i).toNat := by
  rw [maj, BitVec.getLsbD_xor, BitVec.getLsbD_xor, BitVec.getLsbD_and, BitVec.getLsbD_and, BitVec.getLsbD_and]
  generalize a.getLsbD i = p, b.getLsbD i = q, c.getLsbD i = r
  revert p q r
  decide

/-- Settles O26: the bits of each function, σ and Σ by their shapes. -/
theorem datapathBitByBit : Obligations.DatapathBitByBit := fun x y z n i hi =>
  ⟨shr_getLsbD x n i,
   rotr_xor_rotr_xor_shr_getLsbD x (by decide) (by decide) hi,
   rotr_xor_rotr_xor_shr_getLsbD x (by decide) (by decide) hi,
   rotr_xor_rotr_xor_rotr_getLsbD x (by decide) (by decide) (by decide) hi,
   rotr_xor_rotr_xor_rotr_getLsbD x (by decide) (by decide) (by decide) hi,
   ch_getLsbD x y z hi,
   maj_getLsbD x y z i⟩

end Sys2Proof.Machine
end

section
/-!
The Preprocessor and the Chunker (41_preprocessor.md R130 to R142): the padded length is the least multiple of 64 with room,
the padded buffer is known byte by byte, and the first n chunks joined in order are the first 64n bytes of their buffer.
-/

namespace Sys2Proof.Machine

/-! ## The padded length -/

/-- Settles O27: both closed forms and the block counts follow from N = floor((L + 8)/64) + 1. -/
theorem paddedLengthSmallest : Obligations.PaddedLengthSmallest := by
  intro len
  have hroom := le_paddedLength len
  have hcount := blockCount_eq len
  rw [paddedLength_eq] at hroom ⊢
  refine ⟨Nat.mul_mod_right _ _, hroom, fun m hm hle => ?_, ?_, ?_, ?_, hcount, ?_, ?_, ?_⟩ <;> omega

/-- Settles O28: R is L rounded up to a multiple of 64, and whether the field fits in its last block is one comparison. -/
theorem secondWordingAgrees : Obligations.SecondWordingAgrees := by
  intro len r
  rw [paddedLength_eq, blockCount_eq]
  by_cases hfits : r - len - 1 ≥ 8
  · rw [if_pos hfits]; omega
  · rw [if_neg hfits]; omega

/-! ## The padded buffer -/

theorem paddedLength_le (len : Nat) : paddedLength len ≤ len + 72 := by
  rw [paddedLength_eq, blockCount_eq]; omega

/-- Settles O30: the bounds of the padded length, and the message as the first part of the buffer. -/
theorem paddedBufferProperties : Obligations.PaddedBufferProperties := by
  intro msg
  rw [pad_length]
  exact ⟨paddedLength_eq _ ▸ Nat.mul_mod_right _ _, le_paddedLength _, paddedLength_le _, List.take_left⟩

/-- The bytes of the length field, the most significant first (00_scope.md R14). -/
theorem be64bytes_getD (v : BitVec 64) {k : Nat} (hk : k < 8) :
    (be64bytes v).getD k 0 = v.extractLsb' (56 - 8 * k) 8 := by
  interval_cases k <;> rfl

/-- Behind the message stand the marker, the zeros and the length field. -/
theorem pad_getD_add (msg : List Byte) (k : Nat) :
    (pad msg).getD (msg.length + k) 0 =
      (paddingMarker :: (List.replicate (paddedLength msg.length - msg.length - 9) 0
        ++ be64bytes (BitVec.ofNat 64 (8 * msg.length)))).getD k 0 := by
  rw [pad, List.getD_append_right _ _ _ _ (Nat.le_add_right _ _), Nat.add_sub_cancel_left]

/-- Behind the marker, a byte is a zero up to the last eight bytes. -/
theorem pad_getD_zeros {msg : List Byte} {i : Nat} (hlo : msg.length < i) (hhi : i < paddedLength msg.length - 8) :
    (pad msg).getD i 0 = 0 := by
  obtain ⟨k, rfl⟩ := Nat.exists_eq_add_of_lt hlo
  have hk : k < paddedLength msg.length - msg.length - 9 := by omega
  rw [Nat.add_assoc, pad_getD_add, List.getD_cons_succ, List.getD_append _ _ _ _ (by rwa [List.length_replicate]),
    List.getD_replicate _ hk]

/-- The last eight bytes are the length field. -/
theorem pad_getD_lengthField (msg : List Byte) {k : Nat} (hk : k < 8) :
    (pad msg).getD (paddedLength msg.length - 8 + k) 0 =
      (BitVec.ofNat 64 (8 * msg.length)).extractLsb' (56 - 8 * k) 8 := by
  have hroom := le_paddedLength msg.length
  have hplace : paddedLength msg.length - 8 + k
      = msg.length + ((paddedLength msg.length - msg.length - 9 + k) + 1) := by omega
  rw [hplace, pad_getD_add, List.getD_cons_succ, List.getD_append_right _ _ _ _ (by simp), List.length_replicate,
    Nat.add_sub_cancel_left, be64bytes_getD _ hk]

/-- Settles O29: the message, the marker, the zeros and the length field, each by its place. -/
theorem paddedBufferBytes : Obligations.PaddedBufferBytes := by
  intro msg i hi
  rw [pad_length] at hi ⊢
  refine ⟨rfl, ?_⟩
  split_ifs with hmsg hmarker hzeros
  · exact List.getD_append _ _ _ _ hmsg
  · subst hmarker
    exact pad_getD_add msg 0
  · exact pad_getD_zeros (by omega) hzeros
  · obtain ⟨k, rfl⟩ := Nat.exists_eq_add_of_le (Nat.le_of_not_lt hzeros)
    rw [Nat.add_sub_cancel_left]
    exact pad_getD_lengthField msg (by omega)

/-! ## The chunks -/

theorem chunk_length {p : List Byte} {j : Nat} (h : 64 * (j + 1) ≤ p.length) : (chunk p j).length = 64 := by
  rw [chunk, List.length_take, List.length_drop]; omega

theorem chunk_getD (p : List Byte) (j : Nat) {x : Nat} (hx : x < 64) :
    (chunk p j).getD x 0 = p.getD (64 * j + x) 0 := by
  simp [chunk, List.getD_eq_getElem?_getD, List.getElem?_take_of_lt hx]

/-- The first n chunks, joined in order, are the first 64n bytes. -/
theorem flatMap_chunk_range (p : List Byte) (n : Nat) : (List.range n).flatMap (chunk p) = p.take (64 * n) := by
  induction n with
  | zero => rfl
  | succ n ih =>
    rw [List.range_succ, List.flatMap_append, ih, List.flatMap_singleton, Nat.mul_succ, List.take_add, chunk]

/-- Settles O31: the first N chunks are the first 64N bytes, which are all of them. -/
theorem chunksCoverTheBuffer : Obligations.ChunksCoverTheBuffer := by
  refine ⟨fun p n hp => ⟨fun j hj => ⟨chunk_length (by omega), fun x => chunk_getD p j⟩, ?_⟩,
    fun msg => ⟨(pad_length msg).trans (paddedLength_eq _), ?_⟩⟩
  · rw [flatMap_chunk_range, ← hp, List.take_length]
  · rw [blockCount_eq]
    exact Nat.le_add_left 1 _

end Sys2Proof.Machine
end

section
/-!
The Message Scheduler (42_scheduler.md R150, R151): be32 is a number in base 256, and every word the recurrence appends is
`nextWord` of the words before it, which the words appended later leave alone.
-/

namespace Sys2Proof.Machine

/-! ## Big-endian words -/

/-- A byte moved up by at most 24 bits loses no bit of a word. -/
theorem setWidth_shiftLeft_toNat (b : Byte) {n : Nat} (hn : n ≤ 24) : (b.setWidth 32 <<< n).toNat = b.toNat <<< n := by
  have hfits : b.toNat <<< n < 2 ^ 32 := calc
    b.toNat <<< n < 2 ^ (8 + n) := Nat.shiftLeft_lt b.isLt
    _ ≤ 2 ^ 32 := Nat.pow_le_pow_right (by decide) (by omega)
  rw [BitVec.toNat_shiftLeft, BitVec.toNat_setWidth_of_le (by decide), Nat.mod_eq_of_lt hfits]

/-- be32 is the number of its bytes in base 256, the first the most significant (00_scope.md R14): each byte is joined
above all the bits of the bytes after it, so joining is adding. -/
theorem be32_toNat (b0 b1 b2 b3 : Byte) :
    (be32 b0 b1 b2 b3).toNat = b0.toNat * 2 ^ 24 + b1.toNat * 2 ^ 16 + b2.toNat * 2 ^ 8 + b3.toNat := by
  have hlow2 : b2.toNat <<< 8 + b3.toNat < 2 ^ 16 := by rw [Nat.shiftLeft_eq]; omega
  have hlow3 : b1.toNat <<< 16 + (b2.toNat <<< 8 + b3.toNat) < 2 ^ 24 := by simp only [Nat.shiftLeft_eq]; omega
  calc (be32 b0 b1 b2 b3).toNat
    _ = b0.toNat <<< 24 ||| (b1.toNat <<< 16 ||| (b2.toNat <<< 8 ||| b3.toNat)) := by
      simp only [be32, BitVec.toNat_or, setWidth_shiftLeft_toNat, Nat.reduceLeDiff, Nat.or_assoc,
        BitVec.toNat_setWidth_of_le]
    _ = b0.toNat <<< 24 + (b1.toNat <<< 16 + (b2.toNat <<< 8 + b3.toNat)) := by
      rw [Nat.shiftLeft_add_eq_or_of_lt hlow3, Nat.shiftLeft_add_eq_or_of_lt hlow2,
        Nat.shiftLeft_add_eq_or_of_lt b3.isLt]
    _ = _ := by simp only [Nat.shiftLeft_eq, Nat.add_assoc]

/-- Word x of the first sixteen is read at byte 4x of the chunk (42_scheduler.md R150). -/
theorem firstWords_getD (b : List Byte) {x : Nat} (hx : x < 16) : (firstWords b).getD x 0 = chunkWord b x := by
  interval_cases x <;> rfl

/-! ## The recurrence -/

/-- The words so far stay where they are. -/
theorem prefix_extendSchedule (count : Nat) (ws : List Word) : ws <+: extendSchedule count ws := by
  induction count generalizing ws with
  | zero => exact List.prefix_rfl
  | succ count ih => exact (List.prefix_append ws _).trans (ih _)

theorem extendSchedule_getD_of_lt (count : Nat) {ws : List Word} {i : Nat} (h : i < ws.length) :
    (extendSchedule count ws).getD i 0 = ws.getD i 0 := by
  obtain ⟨rest, hrest⟩ := prefix_extendSchedule count ws
  rw [← hrest, List.getD_append _ _ _ _ h]

/-- Every appended word is the next word after those before it. -/
theorem extendSchedule_getD_of_le {count i : Nat} {ws : List Word} (hlo : ws.length ≤ i) (hhi : i < ws.length + count) :
    (extendSchedule count ws).getD i 0 = nextWord ((extendSchedule count ws).take i) := by
  induction count generalizing ws with
  | zero => omega
  | succ count ih =>
    have hlen : (ws ++ [nextWord ws]).length = ws.length + 1 := List.length_append
    obtain rfl | hlt := hlo.eq_or_lt
    · rw [← List.prefix_iff_eq_take.mp (prefix_extendSchedule (count + 1) ws), extendSchedule,
        extendSchedule_getD_of_lt count (by omega), List.getD_append_right _ _ _ _ le_rfl, Nat.sub_self]
      rfl
    · exact ih (by omega) (by omega)

/-- The next word after the first i of a list, by the places of its four operands (42_scheduler.md R151, R153). -/
theorem nextWord_take {ws : List Word} {i : Nat} (hpos : 0 < i) (hi : i ≤ ws.length) :
    nextWord (ws.take i) =
      modularAdd (ws.getD (i - 16) 0)
        [smallSigma0 (ws.getD (i - 15) 0), ws.getD (i - 7) 0, smallSigma1 (ws.getD (i - 2) 0)] := by
  have hget {d : Nat} (hd : 0 < d) : (ws.take i).getD (i - d) 0 = ws.getD (i - d) 0 := by
    simp [List.getD_eq_getElem?_getD, List.getElem?_take_of_lt (Nat.sub_lt hpos hd)]
  rw [nextWord, List.length_take_of_le hi, hget (by decide), hget (by decide), hget (by decide), hget (by decide)]

/-! ## The schedule of a chunk -/

theorem scheduleWord_schedule (b : List Byte) (i : Nat) :
    scheduleWord (schedule b) i = (extendSchedule 48 (firstWords b)).getD i 0 := rfl

/-- Settles O32: the recurrence leaves the first sixteen words alone, and be32 is their number in base 256. -/
theorem scheduleReadsBigEndian : Obligations.ScheduleReadsBigEndian := by
  intro b x hx
  rw [scheduleWord_schedule, extendSchedule_getD_of_lt 48 hx, firstWords_getD b hx, chunkWord, be32_toNat]

/-- Settles O33: word i was appended as the next word after the first i, whose operands lie among them. -/
theorem scheduleRecurrence : Obligations.ScheduleRecurrence := by
  intro b i hlo hhi
  simp only [scheduleWord_schedule]
  rw [extendSchedule_getD_of_le hlo hhi, nextWord_take (by omega) (scheduleList_length b ▸ hhi.le)]

end Sys2Proof.Machine
end

section
/-!
The Compressor (43_compressor.md R160 to R166): the sums of a round as natural numbers, the round and the fold in terms of
them, and the round loop from block start to the fold.
-/

namespace Sys2Proof.Machine

/-! ## The sums of one round -/

theorem modularAdd_singleton (v x : Word) : modularAdd v [x] = v + x :=
  BitVec.eq_of_toNat_eq (by simp [modularAdd_toNat])

/-- temp1 is the sum of its five operands, truncated once (43_compressor.md R161, R163). -/
theorem temp1_toNat (v : Working) (kt wt : Word) :
    (temp1 v kt wt).toNat =
      (v.h.toNat + (bigSigma1 v.e).toNat + (ch v.e v.f v.g).toNat + kt.toNat + wt.toNat) % 2 ^ 32 := by
  simp [temp1, modularAdd_toNat, Nat.add_assoc]

/-- temp2 is the sum of its two operands, truncated once (43_compressor.md R162, R163). -/
theorem temp2_toNat (v : Working) :
    (temp2 v).toNat = ((bigSigma0 v.a).toNat + (maj v.a v.b v.c).toNat) % 2 ^ 32 := by
  simp [temp2, modularAdd_toNat]

/-- The round's two sums are a and e; the other six registers move down one place (43_compressor.md R164). -/
theorem roundUpdate_eq (v : Working) (kt wt : Word) :
    roundUpdate v kt wt =
      ⟨BitVec.ofNat 32 ((temp1 v kt wt).toNat + (temp2 v).toNat), v.a, v.b, v.c,
        BitVec.ofNat 32 (v.d.toNat + (temp1 v kt wt).toNat), v.e, v.f, v.g⟩ := rfl

/-- Settles O21: temp1 and temp2 as numbers, put into the update of the eight registers. -/
theorem roundUpdatesWorking : Obligations.RoundUpdatesWorking := by
  intro s kt wt t1 t2
  have h1 : (temp1 s.v kt wt).toNat = t1 := temp1_toNat s.v kt wt
  have h2 : (temp2 s.v).toNat = t2 := temp2_toNat s.v
  refine ⟨h1, h2, ?_⟩
  rw [← h1, ← h2, ← roundUpdate_eq]
  rfl

/-! ## The fold -/

theorem foldWorking_eq (x : Words8) (v : Working) :
    foldWorking x v =
      ⟨x.w0 + v.a, x.w1 + v.b, x.w2 + v.c, x.w3 + v.d, x.w4 + v.e, x.w5 + v.f, x.w6 + v.g, x.w7 + v.h⟩ := by
  simp only [foldWorking, modularAdd_singleton]

/-- Settles O22: each word of the fold is a sum of two words. -/
theorem foldAddsEachWord : Obligations.FoldAddsEachWord := fun x v =>
  ⟨foldWorking_eq x v, by rw [foldWorking_eq, BitVec.toNat_add]⟩

/-! ## The round loop -/

/-- Settles O20: the loop by induction on the count (`roundLoop_startBlock`), and the block as 64 rounds and the fold. -/
theorem roundLoopRunsInOrder : Obligations.RoundLoopRunsInOrder := by
  refine ⟨fun s => rfl, fun count s => ⟨roundLoop_startBlock count s, rfl⟩, fun s => ?_⟩
  rw [compressBlock_eq, compress]

end Sys2Proof.Machine
end

section
/-!
The commands (44_engine.md R180 to R182, R187 to R189): an equation for each kind of turn, each write to CMD and each
command, and the statements put together from them.
-/

namespace Sys2Proof.Machine

/-! ## Turns -/

/-- A step in which the host's turn is next. -/
theorem step_host {s : State} (hn : nextTurn s = .host) : step s = hostTurn (popTurn s) := by rw [step, takeTurn, hn]

/-- A step in which the sequencer's turn is next. -/
theorem step_core {s : State} (hn : nextTurn s = .core) : step s = sequencerTurn (popTurn s) := by
  rw [step, takeTurn, hn]

/-- The host's turn with a transaction as its next operation. -/
theorem hostTurn_txn {s : State} {x : Txn} {rest : List HostOp} (hprog : s.program = .txn x :: rest) :
    hostTurn s = transact x { s with program := rest } := by
  rw [hostTurn]
  simp only [hprog, popOp, List.tail_cons]

/-! ## Writes to CMD -/

/-- While busy every command is dropped (44_engine.md R181). -/
theorem exec_busy (i : Instr) {s : State} (hp : s.phase = .processing) : exec i s = .next (commandWhileBusy s) := by
  cases i <;> exact unlessBusy_busy hp

/-- A word that decodes to a command runs `exec` of it in every phase: while busy both drop it. -/
theorem writeCmd_of_decode {w : Word} {i : Instr} (hw : decode w = .cmd i) (s : State) : writeCmd w s = exec i s := by
  cases hp : s.phase with
  | idle => exact writeCmd_command hp hw
  | processing => rw [writeCmd_busy w hp, exec_busy i hp]

/-- A command word written to CMD is answered OKAY. -/
theorem transact_writeCmd_command {w : Word} {i : Instr} (hw : decode w = .cmd i) (s : State) :
    transact (.write 0x0000 .four w) s = mapNext (respond .okay 0) (exec i s) := by
  rw [transact_writeCmd, writeCmd_of_decode hw]

/-- Any word written to CMD while busy is dropped and answered OKAY (44_engine.md R181). -/
theorem transact_writeCmd_busy (w : Word) {s : State} (hp : s.phase = .processing) :
    transact (.write 0x0000 .four w) s = .next (respond .okay 0 (raiseError .cmdWhileBusy s)) := by
  rw [transact_writeCmd, writeCmd_busy w hp, mapNext_next, commandWhileBusy]

/-- An illegal word written to CMD of an Idle CORE is refused and answered OKAY (44_engine.md R189). -/
theorem transact_writeCmd_illegal {w : Word} {why : DecodeError} {s : State} (hp : s.phase = .idle)
    (hw : decode w = .illegal why) :
    transact (.write 0x0000 .four w) s = .next (respond .okay 0 (raiseError .illegalCmd s)) := by
  rw [transact_writeCmd, writeCmd_illegal hp hw, mapNext_next, illegalCommand]

/-- An access within CMD of the wrong size or alignment is not admitted (20_memory.md R53, R56). -/
theorem admission_ne_admitted_of_cmd {cap : Nat} {t : Txn} (hoff : (txnOff t).toNat < 4)
    (hbad : txnSize t ≠ .four ∨ (txnOff t).toNat % sizeBytes (txnSize t) ≠ 0) (r : Region) :
    admission cap t ≠ .admitted r := by
  intro h
  obtain ⟨halign, ⟨hfour, -⟩ | ⟨-, hlo, -⟩ | ⟨hlo, -⟩ | ⟨hlo, -⟩⟩ := (admissionByOffset cap t).mp ⟨r, h⟩
  · exact hbad.elim (· hfour) (· halign)
  all_goals omega

/-- Settles O1, by the turn that is next. -/
theorem stepRunsDecodedCommand : Obligations.StepRunsDecodedCommand := by
  refine ⟨fun s hn => step_host hn, fun s hn => step_core hn, fun s x rest hn hprog => ?_,
    fun s w i rest hn hprog hw => ?_⟩
  · rw [step_host hn, hostTurn_txn (s := popTurn s) hprog]
    rfl
  · rw [step_host hn, hostTurn_txn (s := popTurn s) hprog, transact_writeCmd_command hw]
    rfl

/-- Settles O2, line by line of the dispatch. -/
theorem cmdWriteDispatch : Obligations.CmdWriteDispatch := fun s w =>
  ⟨transact_writeCmd_busy w, fun _ _ hw => transact_writeCmd_command hw s,
    fun hp _ hw => transact_writeCmd_illegal hp hw,
    fun off size hoff hbad => rejectedTransactionChangesNothing (.write off size w) s
      (admission_ne_admitted_of_cmd (t := .write off size w) hoff hbad)⟩

/-! ## The value of STATUS -/

/-- STATUS depends on phase, ERR and DONE alone, so its value is that of any state with the same three. -/
theorem status_eq_of_fields (phase : Phase) (err : ErrCode) (done : Bool) {s : State} {value : Word}
    (hp : s.phase = phase) (he : s.err = err) (hd : s.done = done)
    (hvalue : status { State.reset with phase := phase, err := err, done := done } = value) : status s = value := by
  subst hp he hd
  exact hvalue

/-! ## Each command -/

/-- NOP in an Idle CORE (44_engine.md R188). -/
theorem exec_nop_idle {s : State} (hp : s.phase = .idle) : exec .nop s = .next s := unlessBusy_idle hp

/-- INIT in an Idle CORE (44_engine.md R187). -/
theorem exec_init_idle {s : State} (hp : s.phase = .idle) : exec .init s = .next (initIdle s) := unlessBusy_idle hp

/-- HASH of a message that fits the buffer (44_engine.md R182). -/
theorem exec_hash_accept {s : State} (hp : s.phase = .idle) (hlen : s.msgLen.toNat ≤ s.msgCap.toNat) :
    exec .hash s = .next (acceptHash s) := by
  rw [exec, execHash, unlessBusy_idle hp, hashIdle, if_neg (Nat.not_lt.mpr hlen)]

/-- HASH of a message that does not fit the buffer (44_engine.md R182). -/
theorem exec_hash_refuse {s : State} (hp : s.phase = .idle) (hlen : s.msgCap.toNat < s.msgLen.toNat) :
    exec .hash s = .next (raiseError .lenTooLarge s) := by
  rw [exec, execHash, unlessBusy_idle hp, hashIdle, if_pos hlen]

/-- Byte x of the message is MSG_BUF[x]. -/
theorem message_getD (s : State) {x : Nat} (hx : x < s.msgLen.toNat) : (message s).getD x 0 = msgBufByte s x := by
  rw [message, msgBufBytes_getD s 0 _ x hx, Nat.zero_add]

/-- Settles O7, by the phase. -/
theorem nopDoesNothing : Obligations.NopDoesNothing :=
  ⟨decode_encode .nop, fun _ => ⟨exec_nop_idle, exec_busy .nop⟩⟩

/-- Settles O8, by the phase. -/
theorem initRestoresConstruction : Obligations.InitRestoresConstruction :=
  ⟨decode_encode .init, fun _ => ⟨fun hp => ⟨_, exec_init_idle hp, rfl, status_eq_zero hp rfl rfl, rfl, rfl, rfl⟩,
    exec_busy .init⟩⟩

/-- Settles O9, by the phase and the length; a refused HASH leaves the phase and the length that refused it. -/
theorem hashAcceptsOrRefuses : Obligations.HashAcceptsOrRefuses := by
  refine ⟨decode_encode .hash, fun s => ⟨fun hp hlen => ?_, fun hp hlen => ?_, exec_busy .hash⟩⟩
  · exact ⟨_, exec_hash_accept hp hlen, rfl, message_length s, fun _ => message_getD s,
      status_eq_of_fields .processing .none false rfl rfl rfl rfl⟩
  · exact ⟨_, exec_hash_refuse hp hlen, rfl, status_eq_of_fields .idle .lenTooLarge false hp rfl rfl rfl,
      exec_hash_refuse (s := raiseError .lenTooLarge s) hp hlen⟩

/-! ## The frame of the commands -/

/-- A command writes at most H, DIGEST, PAD_LEN, ERR, DONE and the registers of the HASH in progress. -/
theorem exec_frame {i : Instr} {s t : State} (h : exec i s = .next t) :
    ∃ hash digest padLen err done phase lAcc p n j,
      t = { s with h := hash, digest := digest, padLen := padLen, err := err, done := done, phase := phase,
                   lAcc := lAcc, p := p, n := n, j := j } := by
  rcases exec_cases h with ⟨-, rfl⟩ | ⟨-, -, rfl⟩ | ⟨-, -, rfl⟩ | ⟨-, -, -, rfl⟩ | ⟨-, -, -, rfl⟩ <;>
    exact ⟨_, _, _, _, _, _, _, _, _, _, rfl⟩

/-- INIT alone writes H and DIGEST. -/
theorem exec_keeps_digest {i : Instr} {s t : State} (h : exec i s = .next t) (hi : i ≠ .init) :
    t.h = s.h ∧ t.digest = s.digest := by
  rcases exec_cases h with ⟨-, rfl⟩ | ⟨-, -, rfl⟩ | ⟨-, rfl, -⟩ | ⟨-, -, -, rfl⟩ | ⟨-, -, -, rfl⟩
  case inr.inr.inl => exact absurd rfl hi
  all_goals exact ⟨rfl, rfl⟩

/-- HASH alone writes the registers of the HASH in progress. -/
theorem exec_keeps_progress {i : Instr} {s t : State} (h : exec i s = .next t) (hi : i ≠ .hash) :
    t.phase = s.phase ∧ t.lAcc = s.lAcc ∧ t.p = s.p ∧ t.n = s.n ∧ t.j = s.j := by
  rcases exec_cases h with ⟨-, rfl⟩ | ⟨-, -, rfl⟩ | ⟨-, -, rfl⟩ | ⟨-, rfl, -⟩ | ⟨-, rfl, -⟩
  case inr.inr.inr.inl => exact absurd rfl hi
  case inr.inr.inr.inr => exact absurd rfl hi
  all_goals exact ⟨rfl, rfl, rfl, rfl, rfl⟩

/-- NOP does not write PAD_LEN, and in an Idle CORE neither ERR nor DONE. -/
theorem exec_nop_keeps {s t : State} (h : exec .nop s = .next t) :
    t.padLen = s.padLen ∧ (s.phase = .idle → t.err = s.err ∧ t.done = s.done) := by
  rcases exec_cases h with ⟨hp, rfl⟩ | ⟨-, -, rfl⟩ | ⟨-, hi, -⟩ | ⟨-, hi, -⟩ | ⟨-, hi, -⟩
  · exact ⟨rfl, fun hidle => by rw [hp] at hidle; cases hidle⟩
  · exact ⟨rfl, fun _ => ⟨rfl, rfl⟩⟩
  all_goals cases hi

/-- Settles O10, from the frame of every command and from what NOP and a dropped command leave alone. -/
theorem commandFrame : Obligations.CommandFrame := by
  intro i s t h
  have hnop : i = .nop → t.padLen = s.padLen ∧ (s.phase = .idle → t.err = s.err ∧ t.done = s.done) := fun hi =>
    exec_nop_keeps (hi ▸ h)
  have hbusy (hp : s.phase = .processing) : t = raiseError .cmdWhileBusy s :=
    (Host.Outcome.next.inj ((exec_busy i hp).symm.trans h)).symm
  have hinit := exec_keeps_digest h
  have hhash := exec_keeps_progress h
  obtain ⟨_, _, _, _, _, _, _, _, _, _, rfl⟩ := exec_frame h
  refine ⟨rfl, rfl, rfl, fun _ => rfl, rfl, rfl, rfl, rfl, rfl, rfl, rfl, rfl, hinit, hhash, fun hi => (hnop hi).1,
    fun hi => (hnop hi).2, fun hp => ?_⟩
  rw [hbusy hp]
  exact ⟨rfl, rfl, rfl, rfl, rfl, rfl, rfl, rfl⟩

/-! ## Illegal words -/

/-- A word with RSVD not 0 or OPC from 0x03 on decodes to no command (30_encoding.md R84). -/
theorem exists_decode_eq_illegal {w : Word} (h : rsvdField w ≠ 0 ∨ 3 ≤ (opcField w).toNat) :
    ∃ why, decode w = .illegal why := by
  by_cases hr : rsvdField w = 0
  · exact ⟨_, decode_eq_undefinedOpcode_iff.mpr ⟨hr, h.resolve_left (not_not.mpr hr)⟩⟩
  · exact ⟨_, decode_eq_reservedBits_iff.mpr hr⟩

/-- Settles O12, since such a word is illegal. -/
theorem illegalCommandRefused : Obligations.IllegalCommandRefused := by
  intro s w hp hw
  obtain ⟨why, hwhy⟩ := exists_decode_eq_illegal hw
  exact ⟨_, transact_writeCmd_illegal hp hwhy, rfl, status_eq_of_fields .idle .illegalCmd false hp rfl rfl rfl⟩

end Sys2Proof.Machine
end

section
/-!
The core sequencer (44_engine.md R181, R185, R186): its turn in each of the four kinds of state, and where it stops.
-/

namespace Sys2Proof.Machine

/-- The sequencer's turn in an Idle CORE (log 12). -/
theorem sequencerTurn_idle {s : State} (hp : s.phase = .idle) : sequencerTurn s = .next s := by
  rw [sequencerTurn, hp]

/-- The sequencer's turn with a block left (44_engine.md R185). -/
theorem sequencerTurn_block {s : State} (hp : s.phase = .processing) (hj : s.j < s.n) :
    sequencerTurn s = .next (blockStep s) := by
  rw [sequencerTurn, hp]
  exact if_pos hj

/-- The sequencer's turn with every block done (44_engine.md R186). -/
theorem sequencerTurn_finalize {s : State} (hp : s.phase = .processing) (hj : s.j = s.n) :
    sequencerTurn s = .next (finalize s) := by
  rw [sequencerTurn, hp]
  exact (if_neg hj.not_lt).trans (if_pos hj)

/-- The sequencer's turn past the last block (log 13). -/
theorem sequencerTurn_stuck {s : State} (hp : s.phase = .processing) (hj : s.n < s.j) :
    sequencerTurn s = .fault .sequencerStuck := by
  rw [sequencerTurn, hp]
  exact (if_neg hj.not_gt).trans (if_neg hj.ne')

/-- Settles O11: the dropped command, and Finalize, which keeps ERR. -/
theorem commandWhileBusyDropped : Obligations.CommandWhileBusyDropped :=
  ⟨fun _ w hp => transact_writeCmd_busy w hp, fun _ hp hj => ⟨_, sequencerTurn_finalize hp hj, rfl, rfl⟩⟩

/-- Settles O17, from the block step register by register. -/
theorem blockStepCompresses : Obligations.BlockStepCompresses := by
  intro s hp hj
  rw [sequencerTurn_block hp hj, blockStep_eq]
  exact ⟨_, rfl, rfl, rfl, rfl, rfl⟩

/-- Settles O18. -/
theorem finalizeLatchesDigest : Obligations.FinalizeLatchesDigest := fun _ => sequencerTurn_finalize

/-- The sequencer's turn is next in a busy CORE past its last block. -/
def StuckNext (s : State) : Prop := nextTurn s = .core ∧ s.phase = .processing ∧ s.n < s.j

/-- A step from such a state is the fault of the sequencer. -/
theorem step_stuck {s : State} (h : StuckNext s) : step s = .fault .sequencerStuck := by
  obtain ⟨hn, hp, hj⟩ := h
  rw [step_core hn, sequencerTurn_stuck (s := popTurn s) hp hj]

/-- A step from any other state answers a next state: stated as its contrapositive. -/
theorem stuckNext_of_no_step {s : State} (h : ∀ t, step s ≠ .next t) : StuckNext s := by
  cases hn : nextTurn s with
  | host =>
    obtain ⟨t, ht⟩ := hostTurn_next (popTurn s)
    exact absurd ((step_host hn).trans ht) (h t)
  | core =>
    cases hp : s.phase with
    | idle => exact absurd (step_core_idle hp hn) (h _)
    | processing =>
      rcases lt_trichotomy s.j s.n with hj | hj | hj
      · exact absurd ((step_core hn).trans (sequencerTurn_block (s := popTurn s) hp hj)) (h _)
      · exact absurd ((step_core hn).trans (sequencerTurn_finalize (s := popTurn s) hp hj)) (h _)
      · exact ⟨hn, hp, hj⟩
  | reset => exact absurd (by rw [step, takeTurn, hn]) (h (hardwareReset (popTurn s)))
  | powerUp => exact absurd (by rw [step, takeTurn, hn]) (h (powerUp (popTurn s)))

/-- Settles O19: a step stops exactly where the sequencer is stuck. -/
theorem sequencerStopsOnlyPastTheEnd : Obligations.SequencerStopsOnlyPastTheEnd := by
  refine ⟨fun s => sequencerTurn_idle, fun s => ⟨stuckNext_of_no_step, fun h t ht => ?_⟩,
    fun s h => step_stuck (stuckNext_of_no_step h)⟩
  rw [step_stuck h] at ht
  cases ht

end Sys2Proof.Machine
end

section
/-!
Rendering (44_engine.md R190, 10_state.md R30): Render is the DIGEST_HEX view in full, each character is the digit of
one nibble, and the nibbles make up the words.
-/

namespace Sys2Proof.Machine

/-- Render lists DIGEST_HEX from its first character to its last. -/
theorem render_eq_digestHexBytes (d : Words8) : render d = digestHexBytes d 0 64 := rfl

/-- Character c of Render is DIGEST_HEX[c]. -/
theorem render_getD (d : Words8) {c : Nat} (hc : c < 64) : (render d).getD c 0 = digestHexByte d c := by
  rw [render_eq_digestHexBytes, digestHexBytes_getD d 0 64 c hc, Nat.zero_add]

/-- Character 8i + x of DIGEST_HEX shows nibble x of word i. -/
theorem digestHexByte_eq (d : Words8) (i : Nat) {x : Nat} (hx : x < 8) :
    digestHexByte d (8 * i + x) = hexChar (nibble (wordAt d i) x) := by
  rw [digestHexByte, Nat.mul_add_div (by decide), Nat.div_eq_of_lt hx, Nat.mul_add_mod, Nat.mod_eq_of_lt hx,
    Nat.add_zero]

/-- A hexadecimal character as a number. -/
theorem hexChar_toNat (n : BitVec 4) :
    (hexChar n).toNat = if n.toNat < 10 then 0x30 + n.toNat else 0x61 + (n.toNat - 10) := by
  unfold hexChar
  split <;> rw [BitVec.toNat_ofNat, Nat.mod_eq_of_lt (by omega)]

/-- A nibble as a number: a digit in base 16 of its word. -/
theorem nibble_toNat (w : Word) {x : Nat} (hx : x < 8) : (nibble w x).toNat = w.toNat / 16 ^ (7 - x) % 16 := by
  have hplace : 28 - 4 * x = 4 * (7 - x) := by omega
  rw [nibble, BitVec.extractLsb'_toNat, Nat.shiftRight_eq_div_pow, hplace, Nat.pow_mul]

/-- Settles O34, character by character. -/
theorem renderIsLowercaseHex : Obligations.RenderIsLowercaseHex := by
  intro d
  refine ⟨by rw [render_eq_digestHexBytes, digestHexBytes_length], fun i x hi hx => ⟨_, rfl, ?_, ?_⟩⟩
  · rw [render_getD d (by omega), digestHexByte_eq d i hx, hexChar_toNat, nibble_toNat _ hx]
  · rw [render_getD d (by omega)]

/-- A hexadecimal character determines its digit. -/
theorem hexChar_injective : Function.Injective hexChar := by
  intro a b h
  have hnum := congrArg BitVec.toNat h
  rw [hexChar_toNat, hexChar_toNat] at hnum
  apply BitVec.eq_of_toNat_eq
  split_ifs at hnum <;> omega

/-- The nibbles of a word determine it: bit k stands in nibble 7 - k/4. -/
theorem eq_of_nibble_eq {w w' : Word} (h : ∀ x < 8, nibble w x = nibble w' x) : w = w' := by
  apply BitVec.eq_of_getLsbD_eq
  intro k hk
  have hbit := congrArg (·.getLsbD (k % 4)) (h (7 - k / 4) (by omega))
  have hplace : 28 - 4 * (7 - k / 4) + k % 4 = k := by omega
  simpa [nibble, BitVec.getLsbD_extractLsb', hplace, Nat.mod_lt] using hbit

/-- The eight words of a file determine it. -/
theorem words8_ext {d d' : Words8} (h : ∀ i < 8, wordAt d i = wordAt d' i) : d = d' := by
  cases d
  cases d'
  rw [Words8.mk.injEq]
  exact ⟨h 0 (by decide), h 1 (by decide), h 2 (by decide), h 3 (by decide), h 4 (by decide), h 5 (by decide),
    h 6 (by decide), h 7 (by decide)⟩

/-- Settles O35: the characters determine the nibbles, the nibbles the words, and the words the digest. -/
theorem renderInjective : Obligations.RenderInjective := by
  intro d d' h
  refine words8_ext fun i hi => eq_of_nibble_eq fun x hx => hexChar_injective ?_
  rw [← digestHexByte_eq d i hx, ← digestHexByte_eq d' i hx, ← render_getD d (by omega), h,
    render_getD d' (by omega)]

end Sys2Proof.Machine
end

section
/-!
A HASH from its acceptance to its Finalize (44_engine.md R191, R192): after `count` block steps H is the fold of the
first `count` blocks, by induction on `count`; the turn after the last of them latches it.
-/

namespace Sys2Proof.Machine

/-- One turn more than a run is the turn of the state it leads to. -/
theorem sequencerRun_succ {count : Nat} {s x : State} (h : sequencerRun count s = .next x) :
    sequencerRun (count + 1) s = sequencerTurn x := by
  induction count generalizing s with
  | zero =>
    obtain rfl := Host.Outcome.next.inj h
    rw [sequencerRun]
    cases sequencerTurn s <;> rfl
  | succ count ih =>
    rw [sequencerRun] at h ⊢
    split at h
    · exact ih h
    · cases h
    · cases h

/-- N of an accepted HASH is the block count of its message (41_preprocessor.md R142). -/
theorem acceptHash_n (s : State) : (acceptHash s).n = blockCount s.msgLen.toNat :=
  congrArg (· / 64) (pad_message_length s)

/-- The first block steps of a HASH accepted with H = IV: all that they change is H, which is the fold of their blocks,
j, which counts them, and the registers of the Scheduler and the Compressor. -/
theorem sequencerRun_acceptHash {s : State} (hiv : s.h = iv) {count : Nat} (hle : count ≤ blockCount s.msgLen.toNat) :
    ∃ w v t, sequencerRun count (acceptHash s) =
      .next { acceptHash s with h := hashBlocks (pad (message s)) count, w := w, v := v, t := t, j := count } := by
  induction count with
  | zero => exact ⟨s.w, s.v, s.t, by rw [hashBlocks, ← hiv]; rfl⟩
  | succ count ih =>
    obtain ⟨w, v, t, hx⟩ := ih (by omega)
    have hj : count < (acceptHash s).n := by rw [acceptHash_n]; omega
    rw [sequencerRun_succ hx, sequencerTurn_block rfl hj, blockStep_eq, hashBlocks]
    exact ⟨_, _, _, rfl⟩

/-- The whole HASH: after the block steps, Finalize latches the digest of the message. -/
theorem sequencerRun_hash {s : State} (hiv : s.h = iv) :
    ∃ w v t, sequencerRun (blockCount s.msgLen.toNat + 1) (acceptHash s) =
      .next { acceptHash s with
        h := iv, digest := hashWords (message s), w := w, v := v, t := t, j := blockCount s.msgLen.toNat,
        phase := .idle, done := true } := by
  obtain ⟨w, v, t, hx⟩ := sequencerRun_acceptHash hiv le_rfl
  refine ⟨w, v, t, ?_⟩
  rw [sequencerRun_succ hx, sequencerTurn_finalize rfl (acceptHash_n s).symm, hashWords, message_length]
  rfl

/-- Settles O54: the run to Finalize, and the run to each block step before it. -/
theorem hashComputesSha256 : Obligations.HashComputesSha256 := by
  intro s hp hiv hlen hcap
  obtain ⟨w, v, t, hrun⟩ := sequencerRun_hash hiv
  refine ⟨_, _, exec_hash_accept hp hlen, hrun, rfl, fun c hc => (render_getD _ hc).symm, rfl,
    status_eq_of_fields .idle .none true rfl rfl rfl rfl, acceptHash_padLen hcap hlen,
    message_congr rfl rfl rfl, fun count hle => ?_⟩
  obtain ⟨w, v, t, hx⟩ := sequencerRun_acceptHash hiv hle
  exact ⟨_, hx, rfl, rfl⟩

/-- What a HASH leaves: the digest of its message, and a CORE ready for the next one with the message still held. -/
theorem hash_result {s u t : State} (hp : s.phase = .idle) (hiv : s.h = iv) (hlen : s.msgLen.toNat ≤ s.msgCap.toNat)
    (hu : exec .hash s = .next u) (ht : sequencerRun (blockCount s.msgLen.toNat + 1) u = .next t) :
    t.digest = hashWords (message s) ∧ t.phase = .idle ∧ t.h = iv ∧ message t = message s := by
  obtain rfl := Host.Outcome.next.inj ((exec_hash_accept hp hlen).symm.trans hu)
  obtain ⟨w, v, round, hrun⟩ := sequencerRun_hash hiv
  obtain rfl := Host.Outcome.next.inj (hrun.symm.trans ht)
  exact ⟨rfl, rfl, rfl, message_congr rfl rfl rfl⟩

/-- Settles O55: each digest is a function of the message. -/
theorem sameMessageSameDigest : Obligations.SameMessageSameDigest := by
  intro s s' u u' t t' hp hiv hlen hp' hiv' hlen' hmsg hu ht hu' ht'
  obtain ⟨hdigest, hready⟩ := hash_result hp hiv hlen hu ht
  obtain ⟨hdigest', -⟩ := hash_result hp' hiv' hlen' hu' ht'
  exact ⟨by rw [hdigest, hdigest', hmsg], hready⟩

end Sys2Proof.Machine
end

section
/-!
Errors (60_exceptions.md R220 to R226): what raising one writes, which one a transaction reports, what clears ERR and
DONE, and that nothing stops the machine.
-/

namespace Sys2Proof.Machine

/-- Settles O13: ERR and DONE are written, and STATUS shows both. -/
theorem raiseErrorExact : Obligations.RaiseErrorExact := fun code _ s =>
  ⟨rfl, rfl, status_err (raiseError code s), status_done (raiseError code s)⟩

/-- Settles O53: the one state that stops the machine is past its last block, which the invariant rules out. -/
theorem stepNeverStops : Obligations.StepNeverStops := by
  intro s hs
  by_contra hstop
  obtain ⟨-, hp, hj⟩ := stuckNext_of_no_step (not_exists.mp hstop)
  exact hj.not_ge (hs.busy hp).index

/-! ## One transaction, one error -/

/-- An admitted write to CMD hands its word to the dispatch and is answered OKAY (44_engine.md R180). -/
theorem transact_write_cmd {off : Off} {size : BusSize} {data : Word} {s : State}
    (h : admission s.msgCap.toNat (.write off size data) = .admitted .cmd) :
    transact (.write off size data) s = mapNext (respond .okay 0) (writeCmd data s) := by
  rw [transact_write h, performWrite]

/-- An admitted write to MSG_LEN or MSG_BUF while busy is dropped and answered OKAY (20_memory.md R71). -/
theorem transact_write_busy {off : Off} {size : BusSize} {data : Word} {r : Region} {s : State}
    (h : admission s.msgCap.toNat (.write off size data) = .admitted r) (hr : r ≠ .cmd) (hp : s.phase = .processing) :
    transact (.write off size data) s = .next (respond .okay 0 (raiseError .writeWhileBusy s)) := by
  rw [transact_write h]
  rcases admission_write_region h with rfl | rfl | rfl
  · exact absurd rfl hr
  · rw [performWrite, mapNext_next, writeMsgLen_busy data hp]
  · rw [performWrite, mapNext_next, writeMsgBuf_busy _ _ data hp]

/-- Settles O14, in the order admission, busy, illegal word, length. -/
theorem errorPriority : Obligations.ErrorPriority := by
  intro s off size data
  refine ⟨fun why h => transact_rejected h, fun h hp => ?_, fun r h hr hp => transact_write_busy h hr hp,
    fun h hp ⟨why, hw⟩ => ?_, fun h hp hw hlen => ?_⟩
  · rw [transact_write_cmd h, writeCmd_busy data hp]
    rfl
  · rw [transact_write_cmd h, writeCmd_illegal hp hw]
    rfl
  · rw [transact_write_cmd h, writeCmd_command hp hw, exec_hash_refuse hp hlen]
    rfl

/-! ## A step that clears or raises an error -/

/-- A step that issues an admitted write is that write. -/
theorem step_issuesWrite {s : State} {r : Region} {data : Word} (h : IssuesWrite s r data) :
    ∃ off size u, step s = transact (.write off size data) u ∧ u.phase = s.phase ∧ u.msgLen = s.msgLen ∧
      u.msgCap = s.msgCap ∧ admission u.msgCap.toNat (.write off size data) = .admitted r := by
  obtain ⟨hn, off, size, rest, hprog, hadm⟩ := h
  obtain ⟨-, -, htxn, -⟩ := stepRunsDecodedCommand
  exact ⟨off, size, _, htxn s _ rest hn hprog, rfl, rfl, rfl, hadm⟩

/-- A step that raises an error raises one code and is answered OKAY. -/
theorem step_raises {s : State} (h : RaisesError s) :
    ∃ code u, code ≠ .none ∧ step s = .next (respond .okay 0 (raiseError code u)) := by
  rcases h with ⟨hp, r, data, -, hw⟩ | ⟨hp, data, hw, hcause⟩
  · obtain ⟨off, size, u, hstep, hphase, -, -, hadm⟩ := step_issuesWrite hw
    obtain ⟨-, hcmd, hwrite, -, -⟩ := errorPriority u off size data
    by_cases hr : r = .cmd
    · subst hr
      exact ⟨.cmdWhileBusy, u, nofun, hstep.trans (hcmd hadm (hphase.trans hp))⟩
    · exact ⟨.writeWhileBusy, u, nofun, hstep.trans (hwrite r hadm hr (hphase.trans hp))⟩
  · obtain ⟨off, size, u, hstep, hphase, hlen, hcap, hadm⟩ := step_issuesWrite hw
    obtain ⟨-, -, -, hillegal, htoolong⟩ := errorPriority u off size data
    rcases hcause with hwhy | ⟨hhash, hlt⟩
    · exact ⟨.illegalCmd, u, nofun, hstep.trans (hillegal hadm (hphase.trans hp) hwhy)⟩
    · exact ⟨.lenTooLarge, u, nofun, hstep.trans (htoolong hadm (hphase.trans hp) hhash (by rwa [hlen, hcap]))⟩

/-- A step that raises an error leaves a code in ERR and DONE = 0 (60_exceptions.md R221). -/
theorem step_of_raisesError {s t : State} (hr : RaisesError s) (h : step s = .next t) :
    t.err ≠ .none ∧ t.done = false := by
  obtain ⟨code, u, hne, hstep⟩ := step_raises hr
  obtain rfl := Host.Outcome.next.inj (hstep.symm.trans h)
  exact ⟨hne, rfl⟩

/-- A step in which a reset is next (70_reset_and_hazards.md R250). -/
theorem step_reset {s : State} (hn : nextTurn s = .reset) : step s = .next (hardwareReset (popTurn s)) := by
  rw [step, takeTurn, hn]

/-- A step in which a power-up is next (70_reset_and_hazards.md R252). -/
theorem step_powerUp {s : State} (hn : nextTurn s = .powerUp) : step s = .next (powerUp (popTurn s)) := by
  rw [step, takeTurn, hn]

/-- A step that issues a command's word runs that command, and the write is answered OKAY. -/
theorem step_issuesWord {s : State} {i : Instr} (h : IssuesWord s (encode i)) :
    ∃ u, step s = mapNext (respond .okay 0) (exec i u) ∧ u.phase = s.phase ∧ u.msgLen = s.msgLen ∧
      u.msgCap = s.msgCap := by
  obtain ⟨hn, rest, hprog⟩ := h
  obtain ⟨-, -, -, hcommand⟩ := stepRunsDecodedCommand
  exact ⟨_, hcommand s _ i rest hn hprog (decode_encode i), rfl, rfl, rfl⟩

/-- A reset, an INIT in an Idle CORE and an accepted HASH each leave ERR = NONE and DONE = 0 (60_exceptions.md R226). -/
theorem step_of_clearsError {s t : State} (hc : ClearsError s) (h : step s = .next t) :
    t.err = .none ∧ t.done = false := by
  rcases hc with (hn | hn) | ⟨hp, hw | ⟨hw, hlen⟩⟩
  · obtain rfl := Host.Outcome.next.inj ((step_reset hn).symm.trans h)
    exact ⟨rfl, rfl⟩
  · obtain rfl := Host.Outcome.next.inj ((step_powerUp hn).symm.trans h)
    exact ⟨rfl, rfl⟩
  · obtain ⟨u, hstep, hphase, -, -⟩ := step_issuesWord hw
    rw [hstep, exec_init_idle (hphase.trans hp), mapNext_next] at h
    obtain rfl := Host.Outcome.next.inj h
    exact ⟨rfl, rfl⟩
  · obtain ⟨u, hstep, hphase, hmsgLen, hcap⟩ := step_issuesWord hw
    rw [hstep, exec_hash_accept (hphase.trans hp) (by rwa [hmsgLen, hcap]), mapNext_next] at h
    obtain rfl := Host.Outcome.next.inj h
    exact ⟨rfl, rfl⟩

/-! ## Every other step keeps ERR and DONE -/

/-- A read keeps ERR and DONE (20_memory.md R55). -/
theorem performRead_keeps_error (r : Region) (off : Nat) (size : BusSize) (s : State) :
    (performRead r off size s).err = s.err ∧ (performRead r off size s).done = s.done := by
  obtain ⟨responses, draws, he⟩ := performRead_frame r off size s
  rw [he]
  exact ⟨rfl, rfl⟩

/-- A write admitted to CMD of a word that decodes to a command issues that command's word. -/
theorem issuesWord_of_issuesWrite {s : State} {w : Word} {i : Instr} (hw : IssuesWrite s .cmd w)
    (hi : decode w = .cmd i) : IssuesWord s (encode i) := by
  obtain ⟨hn, off, size, rest, hprog, hadm⟩ := hw
  obtain ⟨hoff, hsize⟩ := admission_cmd hadm
  obtain rfl : off = 0x0000 := hoff
  obtain rfl : size = .four := hsize
  exact ⟨hn, rest, by rw [hprog, eq_encode_of_decode hi]⟩

/-- A host turn that issues a write admitted to CMD clears the error, raises one, or keeps ERR and DONE. -/
theorem writeCmd_error_cases {s t : State} {w : Word} (hw : IssuesWrite s .cmd w)
    (h : writeCmd w (popOp (popTurn s)) = .next t) :
    ClearsError s ∨ RaisesError s ∨ (t.err = s.err ∧ t.done = s.done) := by
  rcases writeCmd_cases h with ⟨hp, -⟩ | ⟨hp, hwhy, -⟩ | ⟨hp, i, hi, he⟩
  · exact .inr (.inl (.inl ⟨hp, .cmd, w, .inl rfl, hw⟩))
  · exact .inr (.inl (.inr ⟨hp, w, hw, .inl hwhy⟩))
  rcases exec_cases he with ⟨hbusy, -⟩ | ⟨-, -, rfl⟩ | ⟨-, rfl, -⟩ | ⟨-, rfl, hlen, -⟩ | ⟨-, rfl, hlen, -⟩
  · exact absurd (hp.symm.trans hbusy) nofun
  · exact .inr (.inr ⟨rfl, rfl⟩)
  · exact .inl (.inr ⟨hp, .inl (issuesWord_of_issuesWrite hw hi)⟩)
  · exact .inr (.inl (.inr ⟨hp, w, hw, .inr ⟨hi, hlen⟩⟩))
  · exact .inl (.inr ⟨hp, .inr ⟨issuesWord_of_issuesWrite hw hi, hlen⟩⟩)

/-- A turn of the host clears the error, raises one, or keeps ERR and DONE. -/
theorem hostTurn_error_cases {s t : State} (hn : nextTurn s = .host) (h : hostTurn (popTurn s) = .next t) :
    ClearsError s ∨ RaisesError s ∨ (t.err = s.err ∧ t.done = s.done) := by
  rcases hostTurn_cases h with ⟨-, rfl⟩ | ⟨x, rest, hx, ht⟩ | ⟨rest, -, ht⟩
  · exact .inr (.inr ⟨rfl, rfl⟩)
  · rcases transact_cases ht with ⟨-, rfl⟩ | ⟨r, off, size, -, -, rfl⟩ |
      ⟨off, size, data, u, rfl, rfl, ⟨ha, hu⟩ | ⟨ha, rfl⟩ | ⟨ha, rfl⟩⟩
    · exact .inr (.inr ⟨rfl, rfl⟩)
    · exact .inr (.inr (performRead_keeps_error r off.toNat size (popOp (popTurn s))))
    · exact writeCmd_error_cases (t := u) ⟨hn, off, size, rest, hx, ha⟩ hu
    · cases hp : s.phase with
      | processing => exact .inr (.inl (.inl ⟨hp, .msgLen, data, .inr (.inl rfl), hn, off, size, rest, hx, ha⟩))
      | idle =>
        rw [writeMsgLen_idle (s := popOp (popTurn s)) data hp]
        exact .inr (.inr ⟨rfl, rfl⟩)
    · cases hp : s.phase with
      | processing => exact .inr (.inl (.inl ⟨hp, .msgBuf, data, .inr (.inr rfl), hn, off, size, rest, hx, ha⟩))
      | idle =>
        rw [writeMsgBuf_idle (s := popOp (popTurn s)) _ _ data hp]
        exact .inr (.inr ⟨rfl, rfl⟩)
  · have hkeeps := performRead_keeps_error .status 4 .four (popTurn s)
    rcases ht with rfl | rfl <;> exact .inr (.inr hkeeps)

/-- A turn of the sequencer keeps ERR, and DONE where it is set: Finalize sets it (44_engine.md R185, R186). -/
theorem sequencerTurn_keeps_error {s t : State} (h : sequencerTurn s = .next t) :
    t.err = s.err ∧ (s.done = true → t.done = true) := by
  rcases sequencerTurn_cases h with ⟨-, rfl⟩ | ⟨-, -, rfl⟩ | ⟨-, -, rfl⟩
  · exact ⟨rfl, id⟩
  · obtain ⟨_, _, _, he⟩ := blockStep_shape s
    rw [he]
    exact ⟨rfl, id⟩
  · exact ⟨rfl, fun _ => rfl⟩

/-- A step clears the error, raises one, or keeps ERR, and DONE where it is set. -/
theorem step_error_cases {s t : State} (h : step s = .next t) :
    ClearsError s ∨ RaisesError s ∨ (t.err = s.err ∧ (s.done = true → t.done = true)) := by
  rcases takeTurn_cases h with ⟨hn, ht⟩ | ⟨-, ht⟩ | ⟨hn, -⟩ | ⟨hn, -⟩
  · exact (hostTurn_error_cases hn ht).imp_right (Or.imp_right (And.imp_right Eq.trans))
  · exact .inr (.inr (sequencerTurn_keeps_error (s := popTurn s) ht))
  · exact .inl (.inl (.inl hn))
  · exact .inl (.inl (.inr hn))

/-- Settles O15: the steps that clear or raise write ERR and DONE as said, and every other keeps them. -/
theorem errorClearingExact : Obligations.ErrorClearingExact := by
  intro s t h
  refine ⟨fun herr => ⟨fun hnone => ?_, fun hc => (step_of_clearsError hc h).1⟩,
    fun hdone => ⟨fun hclear => ?_, fun hcr => ?_⟩⟩
  · rcases step_error_cases h with hc | hr | ⟨hkept, -⟩
    · exact hc
    · exact absurd hnone (step_of_raisesError hr h).1
    · exact absurd (hkept.symm.trans hnone) herr
  · rcases step_error_cases h with hc | hr | ⟨-, hkept⟩
    · exact .inl hc
    · exact .inr hr
    · exact absurd ((hkept hdone).symm.trans hclear) nofun
  · rcases hcr with hc | hr
    · exact (step_of_clearsError hc h).2
    · exact (step_of_raisesError hr h).2

end Sys2Proof.Machine
end

section
/-!
Platforms of several instances (60_exceptions.md R235, 20_memory.md R51): a step and an access each replace the state of
one CORE in the platform's list.
-/

namespace Sys2Proof.Machine

/-- The CORE at `base` decodes the bus address of an offset to that offset. -/
theorem offsetIn_busAddress (base : Nat) (off : Off) : offsetIn base (busAddress base off) = some off := by
  have hlt := off.isLt
  rw [offsetIn, busAddress, if_pos (by omega), Nat.add_sub_cancel_left, BitVec.ofNat_toNat, BitVec.setWidth_eq]

/-- An address outside the window reaches nothing of the CORE at `base`. -/
theorem offsetIn_outside {base addr : Nat} (h : addr < base ∨ base + 0xFFFF < addr) : offsetIn base addr = none := by
  rw [offsetIn, if_neg (by omega)]

/-- Everything a step of CORE number `i` can do: nothing where there is none, and its own turn where there is. -/
theorem platformStep_cases {i : Nat} {cs ds : List CoreInstance} (h : platformStep i cs = .next ds) :
    (cs[i]? = none ∧ ds = cs) ∨
    ∃ c t, cs[i]? = some c ∧ takeTurn c.core = .next t ∧ ds = cs.set i { c with core := t } := by
  induction cs generalizing i ds with
  | nil =>
    rw [platformStep] at h
    exact .inl ⟨rfl, (Host.Outcome.next.inj h).symm⟩
  | cons c cs ih =>
    cases i with
    | zero =>
      obtain ⟨t, ht, rfl⟩ := mapNext_eq_next.mp h
      exact .inr ⟨c, t, rfl, ht, rfl⟩
    | succ i =>
      obtain ⟨rest, hrest, rfl⟩ := mapNext_eq_next.mp h
      rcases ih hrest with ⟨hnone, rfl⟩ | ⟨d, t, hd, ht, rfl⟩
      · exact .inl ⟨hnone, rfl⟩
      · exact .inr ⟨d, t, hd, ht, rfl⟩

/-- An access to an address in the window of CORE number `i`, and of none before it, is its transaction there. -/
theorem platformAccess_window {addr i : Nat} {toTxn : Off → Txn} {cs : List CoreInstance} {c : CoreInstance} {off : Off}
    {t : State} (hc : cs[i]? = some c) (hoff : offsetIn c.base addr = some off)
    (hbefore : ∀ x < i, ∀ d, cs[x]? = some d → offsetIn d.base addr = none) (ht : transact (toTxn off) c.core = .next t) :
    platformAccess addr toTxn cs = .next (cs.set i { c with core := t }) := by
  induction cs generalizing i with
  | nil => cases hc
  | cons d cs ih =>
    cases i with
    | zero =>
      obtain rfl := Option.some.inj hc
      simp only [platformAccess, hoff, ht, mapNext_next, List.set_cons_zero]
    | succ i =>
      have hd : offsetIn d.base addr = none := hbefore 0 (Nat.succ_pos i) d rfl
      have hrest := ih hc fun x hx => hbefore (x + 1) (Nat.succ_lt_succ hx)
      simp only [platformAccess, hd, hrest, mapNext_next, List.set_cons_succ]

/-- An access to an address in no window changes no CORE. -/
theorem platformAccess_no_window {addr : Nat} {toTxn : Off → Txn} {cs : List CoreInstance}
    (h : ∀ c ∈ cs, offsetIn c.base addr = none) : platformAccess addr toTxn cs = .next cs := by
  induction cs with
  | nil => rfl
  | cons c cs ih =>
    obtain ⟨hc, hcs⟩ := List.forall_mem_cons.mp h
    simp only [platformAccess, hc, ih hcs, mapNext_next]

/-- Settles O60: both replace one CORE of the list, and the others are read back as they were. -/
theorem instancesShareNothing : Obligations.InstancesShareNothing := by
  refine ⟨fun i cs ds h => ?_, fun base => ⟨offsetIn_busAddress base, fun addr => offsetIn_outside⟩,
    fun addr toTxn cs i c off hc hoff hbefore => ?_, fun addr toTxn cs => platformAccess_no_window⟩
  · rcases platformStep_cases h with ⟨-, rfl⟩ | ⟨c, t, -, -, rfl⟩
    · exact ⟨rfl, fun _ _ => rfl⟩
    · exact ⟨List.length_set, fun x hx => List.getElem?_set_ne hx.symm⟩
  · obtain ⟨t, ht⟩ := transact_next (toTxn off) c.core
    exact ⟨t, ht, platformAccess_window hc hoff hbefore ht, fun x hx => List.getElem?_set_ne hx.symm⟩

end Sys2Proof.Machine
end

section
/-!
Reset and power-up (70_reset_and_hazards.md R250 to R252), and the end of a HASH (R262): every turn of a busy CORE uses
up a turn of the list or a block of the HASH, so the steps left are finite.
-/

namespace Sys2Proof.Machine

/-! ## Reset and power-up -/

/-- Both events are a hardware reset, and MSG_BUF alone tells them apart: a reset keeps it, a power-up draws it anew. -/
theorem step_resetNext {s : State} (h : ResetNext s) :
    ∃ mem bufDraw, step s = .next { hardwareReset (popTurn s) with mem := mem, bufDraw := bufDraw } ∧
      (nextTurn s = .reset → mem = s.mem ∧ bufDraw = s.bufDraw) ∧
      (nextTurn s = .powerUp → mem = [] ∧ bufDraw = s.draws + 1) := by
  rcases h with hn | hn
  · exact ⟨s.mem, s.bufDraw, step_reset hn, fun _ => ⟨rfl, rfl⟩, fun hn' => absurd (hn.symm.trans hn') nofun⟩
  · exact ⟨[], s.draws + 1, step_powerUp hn, fun hn' => absurd (hn.symm.trans hn') nofun, fun _ => ⟨rfl, rfl⟩⟩

/-- Settles O46: the registers are those of the hardware reset, and the power-up's draw is above every earlier one. -/
theorem resetSetsEveryRegister : Obligations.ResetSetsEveryRegister := by
  intro s h
  obtain ⟨mem, bufDraw, hstep, hreset, hpowerUp⟩ := step_resetNext h
  refine ⟨_, hstep, rfl, rfl, rfl, rfl, status_eq_of_fields .idle .none false rfl rfl rfl rfl, rfl, rfl,
    sequencerTurn_idle rfl, fun hn => ?_, fun hn => ?_⟩
  · obtain ⟨rfl, rfl⟩ := hreset hn
    exact ⟨rfl, fun _ => rfl⟩
  · obtain ⟨rfl, rfl⟩ := hpowerUp hn
    exact ⟨rfl, fun _ => rfl, fun hs => (Nat.lt_succ_of_le hs.drawn).ne'⟩

/-! ## The end of a HASH -/

/-- The steps a HASH in progress can still take: the turns to come, the blocks left, and Finalize. -/
def stepsLeft (s : State) : Nat := s.turns.length + (s.n - s.j) + 1

/-- The turn that is next comes off the list, or the list is used up and the sequencer moves in a busy CORE. -/
theorem nextTurn_busy {s : State} (hp : s.phase = .processing) :
    s.turns = nextTurn s :: s.turns.tail ∨ (s.turns = [] ∧ nextTurn s = .core) := by
  cases hturns : s.turns with
  | nil => exact .inr ⟨rfl, by simp only [nextTurn, hturns, hp]⟩
  | cons turn later => exact .inl (by simp only [nextTurn, hturns, List.tail_cons])

/-- With no reset among the turns to come, none is next in a busy CORE. -/
theorem not_resetNext_of_noResetAhead {s : State} (hp : s.phase = .processing) (hr : noResetAhead s = true) :
    ¬ ResetNext s := by
  rcases nextTurn_busy hp with hturns | ⟨-, hn⟩
  · rw [noResetAhead, hturns, List.all_cons, Bool.and_eq_true] at hr
    rintro (hn | hn) <;> simp [hn] at hr
  · rintro (hn' | hn') <;> exact absurd (hn.symm.trans hn') nofun

/-- A step of a busy CORE that is no reset takes its turn off the list, and leaves it Idle or with fewer steps left: the
host's turn uses up a turn of the list, the block step a block. -/
theorem busy_step_shortens {s t : State} (hp : s.phase = .processing) (hreset : ¬ ResetNext s)
    (h : step s = .next t) : t.turns = s.turns.tail ∧ (t.phase = .processing → stepsLeft t < stepsLeft s) := by
  rcases takeTurn_cases h with ⟨hn, ht⟩ | ⟨-, ht⟩ | ⟨hn, -⟩ | ⟨hn, -⟩
  · obtain ⟨err, done, program, responses, draws, rfl⟩ := hostTurn_busy_frame (s := popTurn s) hp ht
    have hturns : s.turns = nextTurn s :: s.turns.tail :=
      (nextTurn_busy hp).resolve_right fun hcore => absurd (hn.symm.trans hcore.2) nofun
    have hlength : s.turns.length = s.turns.tail.length + 1 := congrArg List.length hturns
    refine ⟨rfl, fun _ => ?_⟩
    simp only [stepsLeft, popTurn_turns, popTurn_n, popTurn_j, hlength]
    omega
  · rcases sequencerTurn_cases ht with ⟨hi, -⟩ | ⟨-, hj, rfl⟩ | ⟨-, -, rfl⟩
    · exact absurd (hp.symm.trans hi) nofun
    · obtain ⟨x, v, round, he⟩ := blockStep_shape (popTurn s)
      rw [popTurn_j, popTurn_n] at hj
      rw [he]
      refine ⟨rfl, fun _ => ?_⟩
      simp only [stepsLeft, popTurn_turns, popTurn_n, popTurn_j, List.length_tail]
      omega
    · exact ⟨rfl, nofun⟩
  · exact absurd (.inl hn) hreset
  · exact absurd (.inr hn) hreset

/-- Settles O57, by induction on the steps left: a step leaves the CORE Idle with the digest promised, or busy with the
same promise and fewer steps left. -/
theorem hashTerminates : Obligations.HashTerminates := by
  intro s hs hp hr
  change ∃ count t, count ≤ stepsLeft s ∧ _
  induction hleft : stepsLeft s using Nat.strong_induction_on generalizing s with
  | h left ih =>
    subst hleft
    have hreset := not_resetNext_of_noResetAhead hp hr
    obtain ⟨t, hstep⟩ := stepNeverStops s hs
    obtain ⟨hturns, hshorter⟩ := busy_step_shortens hp hreset hstep
    rcases busyStepKeepsPromise s t hs hp hreset hstep with ⟨htp, hpromise, -⟩ | ⟨hti, hdigest, -, hdone⟩
    · have htr := (advances_step (extra := 1) (by omega) hstep hturns).noResetAhead hr
      obtain ⟨count, u, hcount, hrun, hui, hudone, hudigest⟩ :=
        ih (stepsLeft t) (hshorter htp) t (stepKeepsInv s t hs hstep) htp htr rfl
      refine ⟨1 + count, u, ?_, (run_add (run_one hstep)).trans hrun, hui, hudone, hudigest.trans hpromise⟩
      have := hshorter htp
      omega
    · exact ⟨1, t, Nat.le_add_left 1 _, run_one hstep, hti, hdone, hdigest⟩

end Sys2Proof.Machine
end
